-- ==== Sys2Proof/Word.lean ====
section
/-! DEFINITION. The words of LFSR80: the widths the spec fixes for the Register, the command word, the seed word and a byte of the sampler's buffer. -/

namespace Sys2Proof

/-- A byte of the sampler's buffer (spec/10_state.md R32); bit 0 is the least significant (spec/00_scope.md R15). -/
abbrev Byte := BitVec 8

/-- A value of the Register `R`: 80 bits (spec/10_state.md R21). Index 0 of the spec is the MOST significant bit (spec/00_scope.md R14). -/
abbrev Register := BitVec 80

/-- A command word `CW`: 52 bits, conventional numbering (spec/30_encoding.md R70). -/
abbrev CommandWord := BitVec 52

/-- A seed word `SW`, which is also the payload of a command word: 50 bits (spec/30_encoding.md R72). -/
abbrev SeedWord := BitVec 50

end Sys2Proof
end

