-- ==== Sys2Proof/Config.lean ====
section
/-! DEFINITION. What is fixed for a block or left open by the spec: the constants of spec/00_scope.md R8, the parameters of one instance (R9, R10), and the free values, which are opaque so that no proof can see them. -/

namespace Sys2Proof.Config

/-! ## Fixed parameters (spec/00_scope.md R8) -/

/-- `REG_BITS`. -/
abbrev regBits : Nat := 80
/-- `REFILL_BITS`: new bits per refill. -/
abbrev refillBits : Nat := 8
/-- `TAPS`: the tap offsets of the feedback function. -/
def taps : List Nat := [0, 13, 23, 38, 51, 62]
/-- `WARMUP_REFILLS`: refills discarded at construction. -/
def warmupRefills : Nat := 20
/-- `WARMUP_BITS`. -/
def warmupBits : Nat := warmupRefills * refillBits
/-- `W_FK`. -/
abbrev wFk : Nat := 2
/-- `W_SB`. -/
abbrev wSb : Nat := 4
/-- `W_N`. -/
abbrev wN : Nat := 12
/-- `W_T`. -/
abbrev wT : Nat := 12
/-- `W_RF`. -/
abbrev wRf : Nat := 10
/-- `W_RP`. -/
abbrev wRp : Nat := 10
/-- `SEED_BITS`. -/
abbrev seedBits : Nat := wFk + wSb + wN + wT + wRf + wRp
/-- `FILL_BITS`. -/
abbrev fillBits : Nat := regBits - seedBits
/-- `PAIR`: raw bits read per extractor trial. -/
def pair : Nat := 2

/-! ## Tags of the two enumerated seed parameters (spec/00_scope.md R10, decision D7; log entry 14) -/

/-- The source's enum {binary, prime-order}. No rule of the machine reads it. -/
inductive FieldKind where
  | binary
  | primeOrder
  deriving DecidableEq, Repr

/-- The source's enum {power map, inverse map}. No rule of the machine reads it. -/
inductive SboxKind where
  | powerMap
  | inverseMap
  deriving DecidableEq, Repr

/-- The four tags, parameters of an instance (R10; spec/10_state.md R29 (b); spec/92_eei_decisions.md "Open parameters") with their defaults 0, 1, 0, 1. -/
structure Tags where
  /-- `TAG_FK_BINARY`. -/
  fkBinary : BitVec wFk := 0
  /-- `TAG_FK_PRIME`. -/
  fkPrime : BitVec wFk := 1
  /-- `TAG_SB_POW`. -/
  sbPow : BitVec wSb := 0
  /-- `TAG_SB_INV`. -/
  sbInv : BitVec wSb := 1
  deriving DecidableEq, Repr

/-- The tag of a field kind. -/
def Tags.fieldKind (g : Tags) : FieldKind → BitVec wFk
  | .binary => g.fkBinary
  | .primeOrder => g.fkPrime

/-- The tag of an S-box kind. -/
def Tags.sboxKind (g : Tags) : SboxKind → BitVec wSb
  | .powerMap => g.sbPow
  | .inverseMap => g.sbInv

/-! ## Parameters of one instance (spec/00_scope.md R9) -/

/-- The buffer values `first`, `first + 1`, up to but not including `past`. -/
structure Span where
  first : Nat
  past : Nat
  deriving DecidableEq, Repr

/-- The acceptance test of an instance, as plain data. -/
inductive Parse where
  /-- The default `Parse` of a prime-order field with its `MODULUS` (spec/43_field_sampler.md R156). -/
  | belowModulus (modulus : Nat)
  /-- A `Parse` supplied as an argument (R9, R155, D33): the values of the buffers it accepts, as spans. There are finitely many buffers and each has a value of its own, so every total function of the buffer is one of these, the one that rejects everything (R162) among them (log entry 4). -/
  | supplied (accepted : List Span)
  deriving DecidableEq, Repr

/-- The parameters fixed when an instance is built and never changed by any command (R9, R10, R29 (b)). -/
structure Params where
  /-- `NUM_BITS`: derived bits per attempt. -/
  numBits : Nat
  /-- `REPR_BYTES`: bytes of the sampler's buffer. -/
  reprBytes : Nat
  /-- `Parse`. -/
  parse : Parse
  /-- The tag values, which only a host's spelling of a seed reads. -/
  tags : Tags := {}
  deriving DecidableEq, Repr

/-- DESIGN CHOICE (log entry 3): the parameters `State.reset` carries, those of the reference script's defaults (spec/95_test_vectors.md section 9). No statement rests on them. -/
def defaultParams : Params :=
  { numBits := 8, reprBytes := 1, parse := .belowModulus 251 }

/-! ## Free values -/

/-- What `R` holds after the k-th RESET: the spec gives it no value (spec/10_state.md R34; log entry 1). -/
opaque unspecifiedRegister : Nat → Register

/-- What `CUR` holds after the k-th RESET: the spec gives it no value (spec/10_state.md R34; log entry 1). -/
opaque unspecifiedCursor : Nat → Fin 81

/-- `LAT_INIT`, cycles; no rule reads it (spec/70_reset_and_hazards.md R237, D34; log entry 15). -/
opaque latInit : Nat
/-- `LAT_REFILL`, cycles; no rule reads it. -/
opaque latRefill : Nat
/-- `LAT_RAWBIT`, cycles; no rule reads it. -/
opaque latRawbit : Nat

end Sys2Proof.Config
end

