-- ==== Sys2Proof/Machine/State.lean ====
section
/-! DEFINITION. The state of one block instance as plain data (spec/10_state.md R20, spec/44_host_interface.md R181), the fault and refusal types, and the state after RESET. -/

namespace Sys2Proof.Machine

/-- The LFSR Engine's state: "Register (80 bits) + Cursor" (spec/10_state.md R20). -/
structure Engine where
  /-- `R` (R21); the spec's `R[j]` is `bit reg j`, index 0 most significant (spec/00_scope.md R14). -/
  reg : Register
  /-- `CUR` (R24): the index in `R` of the next raw bit; 80 means none is left. The values 81 to 127 of the spec's 7 bits "are never taken", and the type has none of them (log entry 13). -/
  cur : Fin 81
  deriving DecidableEq, Repr

/-- `PHASE` (R26). `constructed` and `warmedup` occur only inside `INIT`. -/
inductive Phase where
  | unconstructed
  | constructed
  | warmedup
  | ready
  deriving DecidableEq, Repr

/-- The 2-bit code of `PHASE` (R20). -/
def Phase.code : Phase → BitVec 2
  | .unconstructed => 0
  | .constructed => 1
  | .warmedup => 2
  | .ready => 3

/-- `rsp_status` (spec/30_encoding.md R79). -/
inductive Status where
  | ok
  | illegal
  | notReady
  | alreadyInit
  deriving DecidableEq, Repr

/-- The 2-bit code of `rsp_status` (R79). -/
def Status.code : Status → BitVec 2
  | .ok => 0b00#2
  | .illegal => 0b01#2
  | .notReady => 0b10#2
  | .alreadyInit => 0b11#2

/-- A response (R79). A field that R79 does not call valid is absent, "never zero" (R80; log entry 11). -/
structure Response where
  status : Status
  /-- `rsp_bit`. -/
  bit : Option Bool
  /-- `rsp_data` as its bytes, `BUF[0]` first. -/
  data : Option (List Byte)
  deriving DecidableEq, Repr

/-- Where the one command at a time stands (spec/44_host_interface.md R182). -/
inductive Port where
  /-- `busy` = 0: a command word can be accepted. -/
  | idle
  /-- The word was accepted and its command is in progress: `busy` = 1, `rsp_valid` = 0. -/
  | running (word : CommandWord)
  /-- The response is presented and not yet taken: `busy` = 1, `rsp_valid` = 1. -/
  | responding (r : Response)
  deriving DecidableEq, Repr

/-- What the host drives at one clock edge (R181), and the one thing the spec leaves to the implementation at an edge: whether the command in progress is still unfinished (R182 "unspecified and unbounded"; log entry 9). -/
structure Edge where
  rst : Bool := false
  cmdValid : Bool := false
  cmdWord : CommandWord := 0#52
  rspReady : Bool := false
  /-- The command in progress does not complete at this edge. -/
  stall : Bool := false
  deriving DecidableEq, Repr

/-- The whole state. -/
structure State where
  /-- `R` and `CUR`. -/
  eng : Engine
  /-- `PHASE`. -/
  phase : Phase
  /-- `FLT` (R27). -/
  flt : Bool
  /-- The command and response channels (R181, R182). -/
  port : Port
  /-- `NUM_BITS`, `REPR_BYTES`, `Parse`: constant for the instance's life (R29 (b); log entry 3). -/
  inst : Config.Params
  /-- THE MODEL'S FIELD: what the host drives at the coming edges, the next one first (log entry 10). -/
  inputs : List Edge
  /-- THE MODEL'S FIELD: how many times RESET has drawn fresh unspecified values (log entry 2). -/
  freeCount : Nat
  deriving DecidableEq, Repr

/-- The reasons to stop with a fault: none. "There are no fatal conditions triggered by valid input" (spec/60_exceptions.md R200), a command the block will not execute is answered by a response (R202), and a command that never ends stays in progress (spec/44_host_interface.md R187). -/
inductive Fault where
  deriving DecidableEq, Repr

/-- The reasons to refuse to give a meaning. The spec's own refusals ILLEGAL, NOT_READY and ALREADY_INIT are not among them: they are next states (`raiseRefused`). -/
inductive Refusal where
  /-- An instruction that has no meaning yet; raised by no arm. Safe. -/
  | notModelled (mnemonic : String)
  deriving DecidableEq, Repr

/-- The state right after the first RESET (spec/10_state.md R34): `R` and `CUR` hold unspecified values (log entry 1), the host drives nothing (log entry 10), and the instance has the default parameters (log entry 3). -/
def State.reset : State where
  eng := { reg := Config.unspecifiedRegister 0, cur := Config.unspecifiedCursor 0 }
  phase := .unconstructed
  flt := false
  port := .idle
  inst := Config.defaultParams
  inputs := []
  freeCount := 1

end Sys2Proof.Machine
end

