-- ==== Sys2Proof/Machine/Flags.lean ====
section
/-! DEFINITION. The one flag of the block, `FLT`, and the outputs computed from the state. The block has no condition codes (spec/10_state.md R31). -/

namespace Sys2Proof.Machine

/-- `FLT <- 1` (spec/60_exceptions.md R202). -/
def raiseFlt (s : State) : State := { s with flt := true }

/-- `FLT <- 0`, done by RESET only (spec/10_state.md R27). -/
def clearFlt (s : State) : State := { s with flt := false }

/-- `busy`: a command was accepted and its response is not yet taken (spec/44_host_interface.md R186). -/
def State.busy (s : State) : Bool :=
  match s.port with
  | .idle => false
  | .running _ => true
  | .responding _ => true

/-- `cmd_ready` = not `busy` (R182). -/
def State.cmdReady (s : State) : Bool := !s.busy

/-- `ready` = (`PHASE` == `READY`) (R186). -/
def State.ready (s : State) : Bool := decide (s.phase = .ready)

/-- The response presented, if one is. -/
def State.response (s : State) : Option Response :=
  match s.port with
  | .responding r => some r
  | .idle => none
  | .running _ => none

/-- All output ports of R181. The three response fields are absent while `rsp_valid` = 0, and a field R79 does not call valid is absent too (log entry 11). -/
structure Outputs where
  cmdReady : Bool
  rspValid : Bool
  rspStatus : Option Status
  rspBit : Option Bool
  rspData : Option (List Byte)
  ready : Bool
  flt : Bool
  busy : Bool
  deriving DecidableEq, Repr

/-- The output ports in a state: "the only windows on the state; none shows `R` or `CUR`" (R186). -/
def State.outputs (s : State) : Outputs where
  cmdReady := s.cmdReady
  rspValid := s.response.isSome
  rspStatus := s.response.map Response.status
  rspBit := s.response.bind Response.bit
  rspData := s.response.bind Response.data
  ready := s.ready
  flt := s.flt
  busy := s.busy

end Sys2Proof.Machine
end

