-- ==== Sys2Proof/Machine/Ops.lean ====
section
/-! DEFINITION. The shared operations: reading and building Register bits, responding, raising a refusal (the block's "trap entry"), a command that stays in progress, and the event RESET. -/

namespace Sys2Proof.Machine

/-- `R[j]` of the spec: index 0 is the most significant bit (spec/00_scope.md R14). -/
def bit (r : Register) (j : Nat) : Bool := r.getMsbD j

/-- The word of `w` bits whose bit at index `j`, index 0 most significant, is `f j`. -/
def msbFirst : (w : Nat) → (Nat → Bool) → BitVec w
  | 0, _ => 0#0
  | w + 1, f => (msbFirst w f).concat (f w)

/-- Byte `b` of the Register shown as 10 bytes, byte 0 the most significant (spec/20_memory.md R53). -/
def registerByte (r : Register) (b : Nat) : Byte := r.extractLsb' (72 - 8 * b) 8

/-- The response of a command that carries no result (spec/30_encoding.md R79, R80). -/
def plainResponse (c : Status) : Response := { status := c, bit := none, data := none }

/-- The response of an executed `NEXTBIT`. -/
def bitResponse (b : Bool) : Response := { status := .ok, bit := some b, data := none }

/-- The response of an executed `NEXTFE`. -/
def dataResponse (buf : List Byte) : Response := { status := .ok, bit := none, data := some buf }

/-- `respond(…)`: the command ends and its response is presented (spec/30_encoding.md R79, spec/44_host_interface.md R181). The accepted word is not kept (R84). -/
def respond (r : Response) (s : State) : State := { s with port := .responding r }

/-- `raise Refused(code)` (spec/60_exceptions.md R202): `FLT <- 1` and the response; `R`, `CUR` and `PHASE` stay. There is no handler and nothing to return from (R204). -/
def raiseRefused (c : Status) (s : State) : State := respond (plainResponse c) (raiseFlt s)

/-- A command whose loop never ends (spec/44_host_interface.md R187): it stays in progress, and the next step finds it so (log entry 8). -/
def stayInProgress (s : State) : State := s

/-- The event RESET (spec/44_host_interface.md R184): a command in progress is abandoned, a response not yet taken is withdrawn, and `R` and `CUR` get fresh unspecified values (log entries 1, 2). The instance's parameters stay (R29 (b)). -/
def resetEvent (s : State) : State :=
  clearFlt
    { s with
      eng :=
        { reg := Config.unspecifiedRegister s.freeCount, cur := Config.unspecifiedCursor s.freeCount }
      phase := .unconstructed
      port := .idle
      freeCount := s.freeCount + 1 }

end Sys2Proof.Machine
end

