-- ==== Sys2Proof/Machine/Engine.lean ====
section
/-! DEFINITION. The LFSR Engine family (spec/41_lfsr_engine.md): the feedback function, REFILL and RAWBIT. -/

namespace Sys2Proof.Machine

/-- `FB(R, i)`: the exclusive-or of the six taps at offsets `TAPS` from `i` (R120). -/
def feedback (r : Register) (i : Nat) : Bool :=
  (Config.taps.map (fun o => bit r (i + o))).foldl Bool.xor false

/-- `NB[0..7]`: the eight feedback bits, all of the Register as it stands (R121, R122), `NB[0]` most significant. -/
def newBits (r : Register) : BitVec 8 := msbFirst Config.refillBits (feedback r)

/-- `R'` of a refill: `R'[j] = R[j+8]` for j = 0..71 and `R'[72+i] = NB[i]` (R121). -/
def refillReg (r : Register) : Register := (r <<< Config.refillBits) ||| (newBits r).setWidth 80

/-- `REFILL()` (R121), defined at `CUR` = 80 only, where `CUR - 8` is 72 (R123). -/
def refill (e : Engine) (_h : e.cur = 80) : Engine :=
  { reg := refillReg e.reg, cur := e.cur - 8 }

/-- The refill a read performs first when `CUR` = 80 (R124). -/
def refillIfSpent (e : Engine) : Engine :=
  if h : e.cur = 80 then refill e h else e

/-- `RAWBIT()` (R124): the bit at the Cursor, which then advances by 1. -/
def rawbit (e : Engine) : Bool × Engine :=
  (bit (refillIfSpent e).reg (refillIfSpent e).cur,
    { refillIfSpent e with cur := (refillIfSpent e).cur + 1 })

end Sys2Proof.Machine
end

