-- ==== Sys2Proof/Machine/Extractor.lean ====
section
/-! DEFINITION. The Self-Shrinking Extractor family (spec/42_extractor.md): DBIT and the command NEXTBIT. -/

namespace Sys2Proof.Machine

/-- At most `fuel` trials of `DBIT`'s loop (R140): the first raw bit of a pair is the control, the second the candidate, both always read. -/
def dbitLoop : (fuel : Nat) → Engine → Option (Bool × Engine)
  | 0, _ => none
  | fuel + 1, e =>
    let c := rawbit e
    let d := rawbit c.2
    if c.1 then some d else dbitLoop fuel d.2

/-- The number of trials after which a control bit of 1 must have come unless none ever comes (spec/70_reset_and_hazards.md R236). No cap: `Laws.dbit_eq_none_iff` proves that from every engine state, reachable or not, the loop without a bound ends exactly when this one does (log entry 6). -/
def trialBound : Nat := 80

/-- `DBIT()` (R140): the derived bit and the engine after it; none where the loop never ends (R143, R187). -/
def dbit (e : Engine) : Option (Bool × Engine) := dbitLoop trialBound e

/-- `NEXTBIT` (R141). -/
def execNextbit (s : State) : Host.Outcome State Fault Refusal :=
  if s.phase ≠ .ready then .next (raiseRefused .notReady s)
  else
    match dbit s.eng with
    | some (b, e) => .next (respond (bitResponse b) { s with eng := e })
    | none => .next (stayInProgress s)

end Sys2Proof.Machine
end

