-- ==== Sys2Proof/Syntax.lean ====
section
/-! DEFINITION. The instructions of LFSR80: its three host commands, one constructor per row of spec/opcode_table.json. -/

namespace Sys2Proof

/-- A host command (spec/00_scope.md R7, spec/30_encoding.md R71). The six operands of `init` are bit vectors of exactly their slots' widths: the hardware packs whatever bits it is given and interprets none (R73, R77, R78). -/
inductive Instr where
  /-- `INIT fk, sb, n, t, rf, rp` (spec/40_seed_encoder.md R104). -/
  | init (fk : BitVec 2) (sb : BitVec 4) (n : BitVec 12) (t : BitVec 12) (rf : BitVec 10) (rp : BitVec 10)
  /-- `NEXTBIT` (spec/42_extractor.md R141). -/
  | nextbit
  /-- `NEXTFE` (spec/43_field_sampler.md R158). -/
  | nextfe
  deriving DecidableEq, Repr

end Sys2Proof
end

