-- ==== Sys2Proof/WellFormed.lean ====
section
/-! DEFINITION. What is well formed: instructions, the six seed parameters written as natural numbers, and the parameters of an instance. -/

namespace Sys2Proof

/-- Every term of `Instr` is well formed: each operand has exactly its slot's width, and no value of it is refused (spec/30_encoding.md R73, R77, R78). -/
def Instr.wellFormed : Instr → Bool
  | .init _ _ _ _ _ _ => true
  | .nextbit => true
  | .nextfe => true

/-- The six seed parameters as a host writes them, as natural numbers (spec/30_encoding.md R85). -/
structure SeedNats where
  fk : Nat
  sb : Nat
  n : Nat
  t : Nat
  rf : Nat
  rp : Nat
  deriving DecidableEq, Repr

/-- Each value fits its slot (spec/40_seed_encoder.md R101). A value that does not fit spells no command word (spec/60_exceptions.md R207). -/
def SeedNats.fits (p : SeedNats) : Bool :=
  decide (p.fk < 2 ^ Config.wFk) && decide (p.sb < 2 ^ Config.wSb) && decide (p.n < 2 ^ Config.wN) &&
    decide (p.t < 2 ^ Config.wT) && decide (p.rf < 2 ^ Config.wRf) && decide (p.rp < 2 ^ Config.wRp)

/-- The tags name a variant of the source's enumerations and the bit-length is the instance's (spec/44_host_interface.md R188): what a host owes that wants the source's semantics. The hardware does not check it (R77, R164). -/
def SeedNats.conforming (p : SeedNats) (params : Config.Params) : Bool :=
  decide (p.fk = (params.tags.fieldKind .binary).toNat ∨ p.fk = (params.tags.fieldKind .primeOrder).toNat) &&
    decide (p.sb = (params.tags.sboxKind .powerMap).toNat ∨ p.sb = (params.tags.sboxKind .inverseMap).toNat) &&
    decide (p.n = params.numBits)

/-- An operand of an enumerated seed parameter as a program spells it: a number, or a variant by name (R85). -/
inductive Spelled (Kind : Type) where
  | number (v : Nat)
  | variant (k : Kind)
  deriving DecidableEq, Repr

/-- The number an operand stands for, a variant standing for its tag. -/
def Spelled.value {Kind : Type} {w : Nat} (tag : Kind → BitVec w) : Spelled Kind → Nat
  | .number v => v
  | .variant k => (tag k).toNat

/-- The six operands of a program's `INIT` line (R85). -/
structure SeedSpelling where
  fk : Spelled Config.FieldKind
  sb : Spelled Config.SboxKind
  n : Nat
  t : Nat
  rf : Nat
  rp : Nat
  deriving DecidableEq, Repr

/-- The seed parameters a line spells, under the tags of the instance it is written for (R85, spec/00_scope.md R10). -/
def SeedSpelling.nats (g : Config.Tags) (p : SeedSpelling) : SeedNats where
  fk := p.fk.value g.fieldKind
  sb := p.sb.value g.sboxKind
  n := p.n
  t := p.t
  rf := p.rf
  rp := p.rp

/-- The constraint on `MODULUS` (spec/43_field_sampler.md R156); a supplied `Parse` has none. -/
def Config.Parse.wf (reprBytes : Nat) : Config.Parse → Bool
  | .belowModulus m => decide (2 ≤ m) && decide (m ≤ 2 ^ (8 * reprBytes))
  | .supplied _ => true

/-- The constraints on the parameters of an instance (spec/43_field_sampler.md R155, R156). -/
def Config.Params.wf (p : Config.Params) : Bool :=
  decide (1 ≤ p.reprBytes) && decide (1 ≤ p.numBits) && decide (p.numBits ≤ 8 * p.reprBytes) &&
    p.parse.wf p.reprBytes

end Sys2Proof
end

