-- ==== Sys2Proof/Decode.lean ====
section
/-! DEFINITION. Decoding a command word, total on all 2^52 words, and after it the encoder; both written from spec/30_encoding.md R70 to R76 and R82. -/

namespace Sys2Proof

/-- Why a word is illegal, by name. Both are answered with the one status ILLEGAL (spec/60_exceptions.md R201). -/
inductive Illegal where
  /-- `op` = 00 (spec/30_encoding.md R76). -/
  | reservedOp
  /-- `op` = 10 or 11 with a non-zero payload (spec/30_encoding.md R75). -/
  | payloadNotZero
  deriving DecidableEq, Repr

/-- What a command word decodes to. -/
inductive Decoded where
  | command (i : Instr)
  | illegal (why : Illegal)
  deriving DecidableEq, Repr

/-- `CW[51:50]`, the operation code (R70). -/
def opField (w : CommandWord) : BitVec 2 := w.extractLsb' 50 2

/-- `CW[49:0]`, the payload (R70). -/
def payload (w : CommandWord) : SeedWord := w.extractLsb' 0 50

/-- `decode(CW)` (R82). It reads no state (R84). -/
def decode (w : CommandWord) : Decoded :=
  if opField w = 0b00#2 then .illegal .reservedOp
  else if opField w = 0b01#2 then
    .command (.init ((payload w).extractLsb' 48 2) ((payload w).extractLsb' 44 4)
      ((payload w).extractLsb' 32 12) ((payload w).extractLsb' 20 12)
      ((payload w).extractLsb' 10 10) ((payload w).extractLsb' 0 10))
  else if payload w ≠ 0#50 then .illegal .payloadNotZero
  else if opField w = 0b10#2 then .command .nextbit
  else .command .nextfe

/-- `SW = {fk, sb, n, t, rf, rp}` (R72, R73), the first field most significant. -/
def seedWord (fk : BitVec 2) (sb : BitVec 4) (n t : BitVec 12) (rf rp : BitVec 10) : SeedWord :=
  fk ++ sb ++ n ++ t ++ rf ++ rp

/-- The operation code of an instruction (R71). -/
def Instr.op : Instr → BitVec 2
  | .init _ _ _ _ _ _ => 0b01#2
  | .nextbit => 0b10#2
  | .nextfe => 0b11#2

/-- The payload of an instruction: the seed word for `INIT` (R72), zero for the others (R75). -/
def Instr.payload : Instr → SeedWord
  | .init fk sb n t rf rp => seedWord fk sb n t rf rp
  | .nextbit => 0#50
  | .nextfe => 0#50

/-- The command word of an instruction: `{op, payload}` (R70). -/
def encode (i : Instr) : CommandWord := i.op ++ i.payload

/-- `INIT` from six natural numbers: refused (none) where one does not fit its slot, never truncated (spec/40_seed_encoder.md R101, spec/60_exceptions.md R207, D18). -/
def SeedNats.instr? (p : SeedNats) : Option Instr :=
  if p.fits then
    some (.init (BitVec.ofNat 2 p.fk) (BitVec.ofNat 4 p.sb) (BitVec.ofNat 12 p.n)
      (BitVec.ofNat 12 p.t) (BitVec.ofNat 10 p.rf) (BitVec.ofNat 10 p.rp))
  else none

/-- What this decoder reads from a row's word `w` of `nbits` bits: the command word is the 52-bit number itself, and a number of more than 52 bits is no command word (log entry 20). -/
def decodeTableWord (nbits w : Nat) : Option Instr :=
  if w % 2 ^ nbits < 2 ^ 52 then
    match decode (BitVec.ofNat 52 (w % 2 ^ nbits)) with
    | .command i => some i
    | .illegal _ => none
  else none

end Sys2Proof
end

