-- ==== Sys2Proof/Machine/Operands.lean ====
section
/-! DEFINITION. The operand forms: the Register image of the six seed parameters, and the sampler's byte buffer with its packing, its value and the acceptance test. -/

namespace Sys2Proof.Machine

/-- What `ENCODE` writes to `R`: `{fk, sb, n, t, rf, rp, 30 ones}`, each field most significant bit first (spec/40_seed_encoder.md R100, spec/30_encoding.md R74). -/
def seedRegister (fk : BitVec 2) (sb : BitVec 4) (n t : BitVec 12) (rf rp : BitVec 10) : Register :=
  seedWord fk sb n t rf rp ++ BitVec.allOnes 30

/-- A fresh buffer, zero-initialised (spec/43_field_sampler.md R157, R160). -/
def zeroBuf (reprBytes : Nat) : List Byte := List.replicate reprBytes 0#8

/-- `BUF[k div 8][k mod 8] <- 1` (R157). A position past the end of the buffer, which the constraint on `NUM_BITS` excludes (R155), is nowhere and nothing is set (log entry 5). -/
def setBufBit (buf : List Byte) (k : Nat) : List Byte :=
  buf.modify (k / 8) (fun b => b ||| (1#8 <<< (k % 8)))

/-- `BUF[k div 8][k mod 8]`: bit `k` of the buffer in the order drawn (spec/20_memory.md R55). -/
def bufBit (buf : List Byte) (k : Nat) : Bool := ((buf[k / 8]?).getD 0#8).getLsbD (k % 8)

/-- `value(BUF)`: the little-endian integer of the bytes, which is `rsp_data` as a number (spec/20_memory.md R56, R57). -/
def bufValue : List Byte → Nat
  | [] => 0
  | b :: rest => b.toNat + 256 * bufValue rest

/-- `Parse(BUF) == accept` (spec/43_field_sampler.md R155, R156): the default compares strictly with `MODULUS`, a supplied one accepts the values of its spans. -/
def accepts (p : Config.Params) (buf : List Byte) : Bool :=
  match p.parse with
  | .belowModulus m => decide (bufValue buf < m)
  | .supplied spans => spans.any fun r => decide (r.first ≤ bufValue buf) && decide (bufValue buf < r.past)

end Sys2Proof.Machine
end

