-- ==== Sys2Proof/Machine/Sampler.lean ====
section
/-! DEFINITION. The Field Sampler family (spec/43_field_sampler.md): ATTEMPT and the command NEXTFE. -/

namespace Sys2Proof.Machine

/-- `n` more derived bits of an attempt, the next one with index `k` (R157); none where a `DBIT` never returns. -/
def attemptLoop : (n k : Nat) → List Byte → Engine → Option (List Byte × Engine)
  | 0, _, buf, e => some (buf, e)
  | n + 1, k, buf, e =>
    match dbit e with
    | none => none
    | some (x, e') => attemptLoop n (k + 1) (if x then setBufBit buf k else buf) e'

/-- `ATTEMPT()` (R157): `NUM_BITS` derived bits packed into a fresh buffer. -/
def attempt (p : Config.Params) (e : Engine) : Option (List Byte × Engine) :=
  attemptLoop p.numBits 0 (zeroBuf p.reprBytes) e

/-- At most `fuel` passes of `NEXTFE`'s loop (R158): a rejected buffer is discarded and the next attempt starts afresh (R160). -/
def sampleLoop (p : Config.Params) : (fuel : Nat) → Engine → Option (List Byte × Engine)
  | 0, _ => none
  | fuel + 1, e =>
    match attempt p e with
    | none => none
    | some (buf, e') => if accepts p buf then some (buf, e') else sampleLoop p fuel e'

/-- The number of values of (`R`, `CUR`). No cap: an attempt's verdict and the engine after it are functions of the engine before it, so a loop that has rejected this many attempts has met an engine state twice and rejects for ever (`Laws.sample_eq_none_iff`; log entry 7). -/
def engineStates : Nat := 81 * 2 ^ 80

/-- The loop of `NEXTFE` (R158, R162): the accepted buffer and the engine after it; none where the loop never ends (R187). -/
def sample (p : Config.Params) (e : Engine) : Option (List Byte × Engine) := sampleLoop p engineStates e

/-- `NEXTFE` (R158). -/
def execNextfe (s : State) : Host.Outcome State Fault Refusal :=
  if s.phase ≠ .ready then .next (raiseRefused .notReady s)
  else
    match sample s.inst s.eng with
    | some (buf, e) => .next (respond (dataResponse buf) { s with eng := e })
    | none => .next (stayInProgress s)

end Sys2Proof.Machine
end

