-- ==== Sys2Proof/Machine/SeedEncoder.lean ====
section
/-! DEFINITION. The Seed Encoder family (spec/40_seed_encoder.md): ENCODE, WARMUP and the command INIT. -/

namespace Sys2Proof.Machine

/-- `ENCODE(fk, sb, n, t, rf, rp)` (R100): all 80 bits of `R`, `CUR <- 80`, `PHASE <- CONSTRUCTED`. -/
def encodeSeed (fk : BitVec 2) (sb : BitVec 4) (n t : BitVec 12) (rf rp : BitVec 10) (s : State) : State :=
  { s with
    eng := { reg := seedRegister fk sb n t rf rp, cur := 80 }
    phase := .constructed }

/-- `ENCODE` leaves `CUR` at 80, which is what `WARMUP` requires (R102). -/
theorem encodeSeed_cur (fk : BitVec 2) (sb : BitVec 4) (n t : BitVec 12) (rf rp : BitVec 10) (s : State) :
    (encodeSeed fk sb n t rf rp s).eng.cur = 80 := rfl

/-- `k` times `REFILL(); CUR <- 80`, from an engine whose Cursor is at 80 (R102). -/
def discardRefills : (k : Nat) → (e : Engine) → e.cur = 80 → Engine
  | 0, e, _ => e
  | k + 1, e, h => discardRefills k { refill e h with cur := 80 } rfl

/-- `WARMUP()` (R102), defined after `ENCODE`, where `CUR` = 80: 20 refills discarded unread, then `PHASE <- WARMEDUP`. -/
def warmup (s : State) (h : s.eng.cur = 80) : State :=
  { s with eng := discardRefills Config.warmupRefills s.eng h, phase := .warmedup }

/-- `ENCODE`, `WARMUP`, `PHASE <- READY` (R104), without the check and the response. -/
def construct (fk : BitVec 2) (sb : BitVec 4) (n t : BitVec 12) (rf rp : BitVec 10) (s : State) : State :=
  { warmup (encodeSeed fk sb n t rf rp s) (encodeSeed_cur fk sb n t rf rp s) with phase := .ready }

/-- `INIT fk, sb, n, t, rf, rp` (R104). -/
def execInit (fk : BitVec 2) (sb : BitVec 4) (n t : BitVec 12) (rf rp : BitVec 10) (s : State) :
    Host.Outcome State Fault Refusal :=
  if s.phase ≠ .unconstructed then .next (raiseRefused .alreadyInit s)
  else .next (respond (plainResponse .ok) (construct fk sb n t rf rp s))

end Sys2Proof.Machine
end

