-- ==== Sys2Proof/Machine/Dispatch.lean ====
section
/-! DEFINITION. One arm per command: the meaning of a decoded command word (spec/44_host_interface.md R183). -/

namespace Sys2Proof.Machine

def exec (i : Instr) (s : State) : Host.Outcome State Fault Refusal :=
  match i with
  | .init fk sb n t rf rp => Sys2Proof.Machine.execInit fk sb n t rf rp s
  | .nextbit => Sys2Proof.Machine.execNextbit s
  | .nextfe => Sys2Proof.Machine.execNextfe s

end Sys2Proof.Machine
end

