-- ==== Sys2Proof/Machine/HostPort.lean ====
section
/-! DEFINITION. The host interface (spec/44_host_interface.md): dispatch of an accepted word (R183) and what one clock edge does at the ports (R181, R182, R184). -/

namespace Sys2Proof.Machine

/-- `COMMAND(CW)` (R183): decode first, and an illegal word is refused in any phase (spec/60_exceptions.md R203). -/
def command (w : CommandWord) (s : State) : Host.Outcome State Fault Refusal :=
  match decode w with
  | .illegal _ => .next (raiseRefused .illegal s)
  | .command i => exec i s

/-- The acceptance of a word (R181): `busy` rises. -/
def accept (w : CommandWord) (s : State) : State := { s with port := .running w }

/-- The taking of the response (R181): `busy` falls. -/
def takeResponse (s : State) : State := { s with port := .idle }

/-- One edge. RESET wins over everything (R184, R203); an idle block accepts a word that is presented; a command in progress completes unless this edge stalls it (R182); a response is held until taken (R181). -/
def edge (p : Edge) (s : State) : Host.Outcome State Fault Refusal :=
  if p.rst then .next (resetEvent s)
  else
    match s.port with
    | .idle => .next (if p.cmdValid then accept p.cmdWord s else s)
    | .running w => if p.stall then .next s else command w s
    | .responding _ => .next (if p.rspReady then takeResponse s else s)

/-- What the host drives at the next edge: nothing where the list has ended (log entry 10). -/
def nextEdge (s : State) : Edge := s.inputs.headD {}

/-- The state with the next edge's port values consumed. -/
def consumeEdge (s : State) : State := { s with inputs := s.inputs.tail }

/-- The word `w` of `nbits` bits as the accepted command word, about to be executed at an edge at which the host drives nothing. -/
def presentWord (s : State) (nbits w : Nat) : State :=
  { s with port := .running (BitVec.ofNat 52 (w % 2 ^ nbits)), inputs := {} :: s.inputs }

end Sys2Proof.Machine
end

