-- ==== Sys2Proof/Machine/Step.lean ====
section
/-! DEFINITION. The step: one clock edge with the port values the host drives at it (spec/44_host_interface.md R181 to R184). -/

namespace Sys2Proof.Machine

/-- One step: the next edge of the host's list, applied to the block. -/
def step (s : State) : Host.Outcome State Fault Refusal := edge (nextEdge s) (consumeEdge s)

/-- `s` with a table row's word accepted and about to run at the next step (log entry 10). -/
def State.withFetchWord (s : State) (nbits w : Nat) : State := presentWord s nbits w

end Sys2Proof.Machine
end

