-- ==== Sys2Proof/Machine/Script.lean ====
section
/-! DEFINITION. The notation of command sequences (spec/30_encoding.md R85, R86) as data: events, lines with their expansion, and the port values that carry an event. -/

namespace Sys2Proof.Machine

/-- An event of a run (spec/44_host_interface.md R185). -/
inductive Event where
  | reset
  | command (w : CommandWord)
  deriving DecidableEq, Repr

/-- A line of a program (R85), the last three being pseudo-instructions (R86). -/
inductive Line where
  | reset
  | init (p : SeedSpelling)
  | nextbit
  | nextfe
  | word (w : Nat)
  | nextbits (k : Nat)
  | nextfes (k : Nat)
  | new (p : SeedSpelling)
  deriving DecidableEq, Repr

/-- The events a line stands for, under the tags of the instance; none where an operand does not fit (R101, R207). -/
def Line.events (g : Config.Tags) : Line → Option (List Event)
  | .reset => some [.reset]
  | .init p => (p.nats g).instr?.map (fun i => [.command (encode i)])
  | .nextbit => some [.command (encode .nextbit)]
  | .nextfe => some [.command (encode .nextfe)]
  | .word w => if w < 2 ^ 52 then some [.command (BitVec.ofNat 52 w)] else none
  | .nextbits k => some (List.replicate k (.command (encode .nextbit)))
  | .nextfes k => some (List.replicate k (.command (encode .nextfe)))
  | .new p => (p.nats g).instr?.map (fun i => [.reset, .command (encode i)])

/-- The edges by which a host performs an event on an idle block: RESET takes one; a command is presented, completes, and its response is taken. -/
def Event.edges : Event → List Edge
  | .reset => [{ rst := true }]
  | .command w => [{ cmdValid := true, cmdWord := w }, {}, { rspReady := true }]

end Sys2Proof.Machine
end

