-- ==== Sys2Proof/Safety.lean ====
section
/-! DEFINITION. The terms claims are stated in: runs, the raw and derived streams an engine will deliver, the attempts of the sampler, the bit-serial register, and the invariant of the machine. -/

namespace Sys2Proof.Safety

open Sys2Proof.Machine

/-! ## Runs -/

/-- `k` steps, stopping at the first fault or refusal. -/
def run : Nat → State → Host.Outcome State Fault Refusal
  | 0, s => .next s
  | k + 1, s =>
    match step s with
    | .next t => run k t
    | .fault r => .fault r
    | .refused r => .refused r

/-- States some run meets (spec/44_host_interface.md R185): from the state after RESET of an instance with well-formed parameters, whatever the host drives. -/
def Reachable (s : State) : Prop :=
  ∃ (p : Config.Params) (edges : List Edge) (k : Nat),
    p.wf = true ∧ run k { State.reset with inst := p, inputs := edges } = .next s

/-! ## The raw stream (spec/41_lfsr_engine.md R124, R125) -/

/-- The engine after `m` raw bits were read. -/
def afterRaw : Nat → Engine → Engine
  | 0, e => e
  | m + 1, e => afterRaw m (rawbit e).2

/-- The raw bit number `m`, counted from 0, that the engine will deliver. -/
def rawAt (e : Engine) (m : Nat) : Bool := (rawbit (afterRaw m e)).1

/-- The control bit of the `j`-th pair (spec/42_extractor.md R140, R142). -/
def controlBit (e : Engine) (j : Nat) : Bool := rawAt e (2 * j)

/-- The candidate bit of the `j`-th pair. -/
def candidateBit (e : Engine) (j : Nat) : Bool := rawAt e (2 * j + 1)

/-- The `t`-th pair is the first whose control bit is 1: where `DBIT`'s loop without a bound ends. -/
def FirstControl (e : Engine) (t : Nat) : Prop :=
  (∀ i, i < t → controlBit e i = false) ∧ controlBit e t = true

/-- One step of the bit-serial shift register `x <- FB(R, 0); R <- R[1..79] ++ [x]` (spec/41_lfsr_engine.md R122). -/
def serialStep (r : Register) : Register :=
  msbFirst 80 (fun j => if j < 79 then bit r (j + 1) else feedback r 0)

/-- A sequence that obeys the recurrence of spec/41_lfsr_engine.md R125 from the 80 bits of `r` on. -/
def IsStreamOf (r : Register) (s : Nat → Bool) : Prop :=
  (∀ j, j < 80 → s j = bit r j) ∧
    ∀ m, s (m + 80) =
      (s m ^^ s (m + 13) ^^ s (m + 23) ^^ s (m + 38) ^^ s (m + 51) ^^ s (m + 62))

/-! ## The derived stream and the sampler's attempts -/

/-- `n` derived bits in the order drawn, and the engine after them. -/
def derivedBits : Nat → Engine → Option (List Bool × Engine)
  | 0, e => some ([], e)
  | n + 1, e =>
    (dbit e).bind fun r => (derivedBits n r.2).map fun q => (r.1 :: q.1, q.2)

/-- `n` successive `NEXTBIT` commands, each response taken before the next: the bits in order, and the state after them. None where a command is refused or does not respond. -/
def nextbits : Nat → State → Option (List Bool × State)
  | 0, s => some ([], s)
  | n + 1, s =>
    match exec .nextbit s with
    | .next t =>
      match t.port with
      | .responding r =>
        r.bit.bind fun b => (nextbits n (takeResponse t)).map fun q => (b :: q.1, q.2)
      | .idle => none
      | .running _ => none
    | .fault _ => none
    | .refused _ => none

/-- The bits `ds` packed as spec/43_field_sampler.md R157 says: bit `k` at bit `k mod 8` of byte `k div 8`. -/
def pack (reprBytes : Nat) (ds : List Bool) : List Byte :=
  (List.range reprBytes).map fun b => msbFirst 8 fun i => ds.getD (8 * b + (7 - i)) false

/-- The attempt number `k`, counted from 0, of a rejection loop that never accepts before it. -/
def attemptAt (p : Config.Params) : Nat → Engine → Option (List Byte × Engine)
  | 0, e => attempt p e
  | k + 1, e => (attempt p e).bind fun r => attemptAt p k r.2

/-- The attempt number `k` returned a buffer and `Parse` rejects it. -/
def Rejected (p : Config.Params) (e : Engine) (k : Nat) : Prop :=
  ∃ buf e', attemptAt p k e = some (buf, e') ∧ accepts p buf = false

/-! ## The invariant -/

/-- What holds of a response while it is presented (spec/30_encoding.md R79, R80; spec/43_field_sampler.md R159, R163). -/
def ResponseOk (s : State) (r : Response) : Prop :=
  (r.status = .ok → s.phase = .ready) ∧
    (r.status ≠ .ok → s.flt = true ∧ r.bit = none ∧ r.data = none) ∧
    (r.bit.isSome = true → r.data = none) ∧
    ∀ buf, r.data = some buf →
      buf.length = s.inst.reprBytes ∧ bufValue buf < 2 ^ s.inst.numBits ∧ accepts s.inst buf = true

/-- The invariant of the machine between events: `PHASE` is UNCONSTRUCTED or READY (spec/10_state.md R26); once READY, `R` is not zero (R30) and `CUR` is 74, 76, 78 or 80 (R25); the instance's parameters are well formed (spec/43_field_sampler.md R155, R156); a response presented is one R79 allows. -/
def Invariant (s : State) : Prop :=
  (s.phase = .unconstructed ∨ s.phase = .ready) ∧
    (s.phase = .ready →
      s.eng.reg ≠ 0#80 ∧ (s.eng.cur = 74 ∨ s.eng.cur = 76 ∨ s.eng.cur = 78 ∨ s.eng.cur = 80)) ∧
    s.inst.wf = true ∧
    ∀ r, s.port = .responding r → ResponseOk s r

/-- The same block as an instance with other tag values (spec/00_scope.md R10). -/
def withTags (g : Config.Tags) (s : State) : State := { s with inst := { s.inst with tags := g } }

/-- The head of the input list drives RESET. -/
def resetNext (s : State) : Bool := (nextEdge s).rst

end Sys2Proof.Safety
end

