-- ==== Sys2Proof/Certificates/Slice0/Obligations.lean ====
section
/-! DEFINITION. The statements for the provers. Each docstring names the rule of spec/ it formalises; a clause that rests on a choice of the model names its log entry. -/

open Sys2Proof Sys2Proof.Machine Sys2Proof.Safety

/-! ## Encodings -/

/-- Decoding the word of a command gives the command back, with every operand at every value (spec/30_encoding.md R70 to R75, R82). -/
def Obligations.DecodeOfEncode : Prop :=
  ∀ i : Instr, i.wellFormed = true → decode (encode i) = .command i

/-- A word that decodes to a command is that command's word: no two legal words spell one command (R75, D20). -/
def Obligations.EncodeOfDecode : Prop :=
  ∀ (w : CommandWord) (i : Instr), decode w = .command i → encode i = w

/-- What each of the 2^52 words decodes to, by its value as a number (R82, R73). -/
def Obligations.DecodeByWordValue : Prop :=
  ∀ w : CommandWord,
    (w.toNat < 2 ^ 50 → decode w = .illegal .reservedOp) ∧
    (2 ^ 50 ≤ w.toNat → w.toNat < 2 ^ 51 →
      decode w = .command (.init (BitVec.ofNat 2 (w.toNat / 2 ^ 48)) (BitVec.ofNat 4 (w.toNat / 2 ^ 44))
        (BitVec.ofNat 12 (w.toNat / 2 ^ 32)) (BitVec.ofNat 12 (w.toNat / 2 ^ 20))
        (BitVec.ofNat 10 (w.toNat / 2 ^ 10)) (BitVec.ofNat 10 w.toNat))) ∧
    (w.toNat = 2 ^ 51 → decode w = .command .nextbit) ∧
    (w.toNat = 3 * 2 ^ 50 → decode w = .command .nextfe) ∧
    (2 ^ 51 < w.toNat → w.toNat ≠ 3 * 2 ^ 50 → decode w = .illegal .payloadNotZero)

/-- Words written out in spec/95_test_vectors.md V14 decode as it says. -/
def Obligations.ScenarioWordsDecode : Prop :=
  decode 0x500FF00302038#52 = .command (.init 1 0 255 3 8 56) ∧
    decode 0x7FFFFFFFFFFFF#52 = .command (.init 3 15 4095 4095 1023 1023) ∧
    decode 0x8000000000000#52 = .command .nextbit ∧
    decode 0xC000000000000#52 = .command .nextfe ∧
    decode 0x3FFFFFFFFFFFF#52 = .illegal .reservedOp ∧
    decode 0xE000000000000#52 = .illegal .payloadNotZero

/-- `INIT` from six natural numbers is refused exactly when one does not fit its slot, and otherwise has the word of R73 (R73, R101, R207). -/
def Obligations.SeedFromNaturalsFitsOrIsRefused : Prop :=
  ∀ p : SeedNats,
    (p.instr? = none ↔
      ¬ (p.fk < 4 ∧ p.sb < 16 ∧ p.n < 4096 ∧ p.t < 4096 ∧ p.rf < 1024 ∧ p.rp < 1024)) ∧
    ∀ i, p.instr? = some i →
      (encode i).toNat = 2 ^ 50 + (p.fk * 2 ^ 48 + p.sb * 2 ^ 44 + p.n * 2 ^ 32 + p.t * 2 ^ 20 +
        p.rf * 2 ^ 10 + p.rp)

/-- The Register at construction, by bit and as one number, with the rule's example (R74). -/
def Obligations.SeedFieldsInRegister : Prop :=
  (∀ (fk : BitVec 2) (sb : BitVec 4) (n t : BitVec 12) (rf rp : BitVec 10),
    (∀ j, j < 50 → bit (seedRegister fk sb n t rf rp) j = (seedWord fk sb n t rf rp).getLsbD (49 - j)) ∧
    (∀ j, 50 ≤ j → j < 80 → bit (seedRegister fk sb n t rf rp) j = true) ∧
    (seedRegister fk sb n t rf rp).toNat = (seedWord fk sb n t rf rp).toNat * 2 ^ 30 + (2 ^ 30 - 1)) ∧
  seedWord 1 0 255 3 8 56 = 0x100FF00302038#50 ∧
  seedRegister 1 0 255 3 8 56 = 0x403FC00C080E3FFFFFFF#80

/-- The Register shown as 10 bytes is big-endian in bits and in bytes (R53). -/
def Obligations.RegisterBytesAreBigEndian : Prop :=
  ∀ r : Register,
    (∀ b j, b < 10 → j < 8 → (registerByte r b).getMsbD j = bit r (8 * b + j)) ∧
    r.toNat = (List.range 10).foldl (fun acc b => acc * 256 + (registerByte r b).toNat) 0

/-! ## The LFSR Engine -/

/-- A refill in whole-word arithmetic: shift by 8, and the exclusive-or of six windows of 8 bits in the low byte; `CUR` goes from 80 to 72 (R120, R121). -/
def Obligations.RefillAsWordArithmetic : Prop :=
  ∀ (e : Engine) (h : e.cur = 80),
    (refill e h).cur = 72 ∧
    (refill e h).reg = (e.reg <<< 8) |||
      (((e.reg >>> 72) ^^^ (e.reg >>> 59) ^^^ (e.reg >>> 49) ^^^ (e.reg >>> 34) ^^^ (e.reg >>> 21) ^^^
        (e.reg >>> 10)) &&& 0xFF#80)

/-- One refill equals eight steps of the bit-serial shift register, and lane i reads six bits of the one Register value, none of them above index 69 (R122). -/
def Obligations.RefillIsEightSerialSteps : Prop :=
  (∀ r : Register, refillReg r = serialStep^[8] r) ∧
    ∀ (r r' : Register) (i : Nat), i < 8 →
      (∀ o ∈ [0, 13, 23, 38, 51, 62], i + o ≤ 69 → bit r (i + o) = bit r' (i + o)) →
      bit (refillReg r) (72 + i) = bit (refillReg r') (72 + i)

/-- REFILL is a bijection on Register values that fixes zero and only zero goes to zero; the old Register is recovered by the rule's equations; ENCODE never makes the zero Register, and no reachable constructed state holds it (R126). -/
def Obligations.RefillIsBijective : Prop :=
  Function.Bijective refillReg ∧
    refillReg 0#80 = 0#80 ∧
    (∀ r, r ≠ 0#80 → refillReg r ≠ 0#80) ∧
    (∀ r : Register, (∀ j, j < 72 → bit r (j + 8) = bit (refillReg r) j) ∧
      ∀ i, i < 8 → bit r i = (bit (refillReg r) (72 + i) ^^ bit r (i + 13) ^^ bit r (i + 23) ^^
        bit r (i + 38) ^^ bit r (i + 51) ^^ bit r (i + 62))) ∧
    (∀ fk sb n t rf rp, seedRegister fk sb n t rf rp ≠ 0#80) ∧
    ∀ s, Reachable s → s.phase = .ready → s.eng.reg ≠ 0#80

/-- A read at `CUR` = 80 refills first and leaves `CUR` = 73; at any other `CUR` it returns `R[CUR]`, leaves `R` and advances `CUR` by 1 (R124). -/
def Obligations.RawbitReadsAtTheCursor : Prop :=
  ∀ e : Engine,
    (e.cur = 80 → rawbit e = (bit (refillReg e.reg) 72, { reg := refillReg e.reg, cur := 73 })) ∧
    ∀ c, c < 80 → e.cur.val = c →
      (rawbit e).1 = bit e.reg c ∧ (rawbit e).2.reg = e.reg ∧ (rawbit e).2.cur.val = c + 1

/-- Eight reads from `CUR` = 80 perform exactly one refill and return `NB[0]` to `NB[7]` in order; the ninth refills again (R124, R121). -/
def Obligations.EightReadsPerRefill : Prop :=
  ∀ r : Register,
    (∀ i, i < 8 → rawAt { reg := r, cur := 80 } i = feedback r i) ∧
    afterRaw 8 { reg := r, cur := 80 } = { reg := refillReg r, cur := 80 } ∧
    rawAt { reg := r, cur := 80 } 8 = feedback (refillReg r) 0

/-- The stream view: after the k-th refill since ENCODE `R[j]` = s[8k+j], the warm-up delivers none of s[80..239], and the m-th raw bit after `INIT` is s[240+m] (R125); after m raw bits the Register is that of refill number 20 + ceil(m/8), one refill per eight reads (R124). -/
def Obligations.StreamAfterConstruction : Prop :=
  ∀ (fk : BitVec 2) (sb : BitVec 4) (n t : BitVec 12) (rf rp : BitVec 10) (s : Nat → Bool),
    IsStreamOf (seedRegister fk sb n t rf rp) s →
      (∀ k j, j < 80 → bit (refillReg^[k] (seedRegister fk sb n t rf rp)) j = s (8 * k + j)) ∧
      ∀ st st' : State, st.phase = .unconstructed → exec (.init fk sb n t rf rp) st = .next st' →
        ∀ m, rawAt st'.eng m = s (240 + m) ∧
          (afterRaw m st'.eng).reg = refillReg^[20 + (m + 7) / 8] (seedRegister fk sb n t rf rp)

/-! ## INIT -/

/-- `INIT` on an unconstructed block completes: `R` is 20 refills of SW*2^30 + 2^30 - 1, `CUR` is 80, `PHASE` is READY, the response is OK without data, and nothing else changes (R100, R102, R104, R35). -/
def Obligations.InitBuildsTheWarmedRegister : Prop :=
  ∀ (fk : BitVec 2) (sb : BitVec 4) (n t : BitVec 12) (rf rp : BitVec 10) (s : State),
    s.phase = .unconstructed →
      exec (.init fk sb n t rf rp) s = .next
        { s with
          eng :=
            { reg := refillReg^[20] (BitVec.ofNat 80
                ((fk.toNat * 2 ^ 48 + sb.toNat * 2 ^ 44 + n.toNat * 2 ^ 32 + t.toNat * 2 ^ 20 +
                  rf.toNat * 2 ^ 10 + rp.toNat) * 2 ^ 30 + (2 ^ 30 - 1)))
              cur := 80 }
          phase := .ready
          port := .responding { status := .ok, bit := none, data := none } }

/-- Equal seed words give equal engines; different seed words give different Registers and raw streams that differ (R107). -/
def Obligations.DistinctSeedsGiveDistinctStreams : Prop :=
  ∀ (i j : Instr) (s s' t t' : State), i.op = 0b01#2 → j.op = 0b01#2 →
    s.phase = .unconstructed → s'.phase = .unconstructed →
    exec i s = .next t → exec j s' = .next t' →
      (i.payload = j.payload → t.eng = t'.eng) ∧
      (i.payload ≠ j.payload → t.eng.reg ≠ t'.eng.reg ∧ ∃ m, rawAt t.eng m ≠ rawAt t'.eng m)

/-! ## The Extractor -/

/-- DBIT is the loop without a bound: it returns the candidate of the first pair whose control is 1, however late that is, having read both bits of every pair up to it (R140, R143). -/
def Obligations.DbitIsTheUnboundedLoop : Prop :=
  ∀ (e : Engine) (b : Bool) (e' : Engine),
    dbit e = some (b, e') ↔
      ∃ t, FirstControl e t ∧ b = candidateBit e t ∧ e' = afterRaw (2 * t + 2) e

/-- `NEXTBIT` on a READY block whose Register is not zero (as in every reachable READY state) completes within 80 trials, with the derived bit in the response and nothing but the engine and the port changed (R141, R140). The bound 80 is R236's own derivation and is not in the source. -/
def Obligations.NextbitCompletesWithinEightyTrials : Prop :=
  ∀ s : State, s.phase = .ready → s.eng.reg ≠ 0#80 →
    ∃ t, t < 80 ∧ FirstControl s.eng t ∧
      exec .nextbit s = .next
        { s with
          eng := afterRaw (2 * t + 2) s.eng
          port := .responding { status := .ok, bit := some (candidateBit s.eng t), data := none } }

/-- A query that responds has consumed raw bits in whole pairs, and exactly those it needed: `NEXTBIT` all pairs up to the first whose control is 1, `NEXTFE` all pairs up to the one whose control is the last of the controls that are 1, `NUM_BITS` of them for each of its attempts, the rejected ones included, and no more than 80 pairs for each (R142, R161; the 80 is R236's derivation). -/
def Obligations.QueriesConsumeWholePairs : Prop :=
  ∀ (s t : State) (w : CommandWord) (r : Response), s.port = .running w → s.phase = .ready →
    t.port = .responding r →
      (exec .nextbit s = .next t → ∃ k, FirstControl s.eng k ∧ t.eng = afterRaw (2 * (k + 1)) s.eng) ∧
      (exec .nextfe s = .next t → ∃ a m buf,
        (∀ i, i < a → Rejected s.inst s.eng i) ∧ attemptAt s.inst a s.eng = some (buf, t.eng) ∧
        accepts s.inst buf = true ∧ r.data = some buf ∧
        t.eng = afterRaw (2 * m) s.eng ∧
        (List.range m).countP (controlBit s.eng) = (a + 1) * s.inst.numBits ∧
        (m = 0 ∨ controlBit s.eng (m - 1) = true) ∧ m ≤ 80 * ((a + 1) * s.inst.numBits))

/-! ## The Field Sampler -/

/-- From a Register that is not zero an attempt returns, having consumed 2*NUM_BITS to 160*NUM_BITS raw bits, an even number (R157, R161, R237). -/
def Obligations.AttemptReturnsWithinItsBound : Prop :=
  ∀ (p : Config.Params) (e : Engine), e.reg ≠ 0#80 →
    ∃ buf m, p.numBits ≤ m ∧ m ≤ 80 * p.numBits ∧ attempt p e = some (buf, afterRaw (2 * m) e)

/-- An attempt draws `NUM_BITS` derived bits and packs the k-th at bit k mod 8 of byte k div 8 of a fresh buffer (R157, R160). -/
def Obligations.AttemptPacksDerivedBits : Prop :=
  ∀ (p : Config.Params) (e e' : Engine) (ds : List Bool), p.wf = true →
    derivedBits p.numBits e = some (ds, e') →
      ds.length = p.numBits ∧ attempt p e = some (pack p.reprBytes ds, e')

/-- The bits of a buffer above `NUM_BITS` are 0 in every buffer `Parse` sees and in every response, so its value is below 2^NUM_BITS (R159). -/
def Obligations.BufferBitsAboveNumBitsAreZero : Prop :=
  (∀ (p : Config.Params) (e e' : Engine) (buf : List Byte), p.wf = true →
    attempt p e = some (buf, e') →
      (∀ k, p.numBits ≤ k → bufBit buf k = false) ∧ bufValue buf < 2 ^ p.numBits) ∧
  ∀ (s t : State) (w : CommandWord) (r : Response) (buf : List Byte), s.inst.wf = true →
    s.port = .running w → exec .nextfe s = .next t → t.port = .responding r → r.data = some buf →
      (∀ k, s.inst.numBits ≤ k → bufBit buf k = false) ∧ bufValue buf < 2 ^ s.inst.numBits

/-- `NEXTFE` on a READY block completes whenever some attempt is accepted, however late: it returns the first accepted buffer and leaves the engine right after that attempt, and nothing else changes but the port (R158, R160, R162). The premise on the attempts is the one R162 says a claim must carry. -/
def Obligations.NextfeReturnsTheFirstAcceptedBuffer : Prop :=
  ∀ (s : State) (a : Nat) (buf : List Byte) (e' : Engine), s.phase = .ready →
    (∀ i, i < a → Rejected s.inst s.eng i) →
    attemptAt s.inst a s.eng = some (buf, e') → accepts s.inst buf = true →
      exec .nextfe s = .next
        { s with
          eng := e'
          port := .responding { status := .ok, bit := none, data := some buf } }

/-- Every buffer `NEXTFE` returns is accepted by `Parse`; with the default `Parse` its value is below `MODULUS`; and the default `Parse` accepts exactly the buffers whose value is below `MODULUS` (R163, R156). -/
def Obligations.NextfeResultIsAccepted : Prop :=
  (∀ (s t : State) (w : CommandWord) (r : Response), s.port = .running w →
    exec .nextfe s = .next t → t.port = .responding r → r.status = .ok →
      ∃ buf, r.data = some buf ∧ r.bit = none ∧ accepts s.inst buf = true ∧
        ∀ m, s.inst.parse = .belowModulus m → bufValue buf < m) ∧
  ∀ (p : Config.Params) (m : Nat) (buf : List Byte), p.parse = .belowModulus m →
    (accepts p buf = true ↔ bufValue buf < m)

/-- A host that has only `NEXTBIT` reproduces `NEXTFE`: it draws `NUM_BITS` bits and packs them; if `Parse` accepts, `NEXTFE` would have answered that buffer and left that engine, and if not, `NEXTFE` goes on exactly as it would from there (R163, R144, R86). -/
def Obligations.NextfeFromNextbits : Prop :=
  ∀ (s t : State) (w : CommandWord) (ds : List Bool), s.phase = .ready → s.inst.wf = true →
    s.port = .running w → nextbits s.inst.numBits s = some (ds, t) →
      (accepts s.inst (pack s.inst.reprBytes ds) = true →
        exec .nextfe s = .next
          { s with
            eng := t.eng
            port := .responding
              { status := .ok, bit := none, data := some (pack s.inst.reprBytes ds) } }) ∧
      (accepts s.inst (pack s.inst.reprBytes ds) = false →
        ∀ u r, u.port = .responding r →
          (exec .nextfe s = .next u ↔ exec .nextfe { s with eng := t.eng } = .next u))

/-- A `NEXTFE` whose `Parse` accepts no attempt never responds: after any number of edges without RESET it is still in progress, with `busy` = 1 (R162, R187). That the state shown meanwhile is the one the command was accepted in is the model's choice, log entry 8. -/
def Obligations.HungCommandStaysInProgress : Prop :=
  ∀ (s : State) (w : CommandWord) (k : Nat), s.port = .running w → decode w = .command .nextfe →
    s.phase = .ready → s.eng.reg ≠ 0#80 → (∀ i, Rejected s.inst s.eng i) →
    (∀ p, p ∈ s.inputs.take k → p.rst = false) →
      run k s = .next { s with inputs := s.inputs.drop k }

/-! ## Refusals and dispatch -/

/-- A refusal sets `FLT` and gives the response with its code; `R`, `CUR` and `PHASE` are unchanged and the command has no other effect (R202), for each of the three causes of R201. That the response's other two fields are absent is how the model holds "unspecified", log entry 11. -/
def Obligations.RefusalSetsOnlyTheFlag : Prop :=
  ∀ s : State,
    (∀ w why, decode w = .illegal why → command w s = .next
      { s with flt := true, port := .responding { status := .illegal, bit := none, data := none } }) ∧
    (s.phase ≠ .unconstructed → ∀ fk sb n t rf rp, exec (.init fk sb n t rf rp) s = .next
      { s with flt := true, port := .responding { status := .alreadyInit, bit := none, data := none } }) ∧
    (s.phase ≠ .ready → ∀ i, i = Instr.nextbit ∨ i = Instr.nextfe → exec i s = .next
      { s with flt := true, port := .responding { status := .notReady, bit := none, data := none } })

/-- A word with `op` = 00, whatever its payload, and a word with `op` = 10 or 11 and a non-zero payload are refused with ILLEGAL, in any phase (R75, R76). -/
def Obligations.IllegalWordIsRefusedInAnyPhase : Prop :=
  ∀ (s : State) (w : CommandWord), s.port = .running w → (nextEdge s).rst = false →
    (nextEdge s).stall = false →
    (w.toNat / 2 ^ 50 = 0 ∨ (2 ≤ w.toNat / 2 ^ 50 ∧ w.toNat % 2 ^ 50 ≠ 0)) →
      step s = .next
        { s with
          inputs := s.inputs.tail
          flt := true
          port := .responding { status := .illegal, bit := none, data := none } }

/-- A step at which an accepted word completes runs the command the word decodes to (R183, R84). -/
def Obligations.StepRunsTheDecodedCommand : Prop :=
  ∀ (s : State) (w : CommandWord) (i : Instr), s.port = .running w → decode w = .command i →
    (nextEdge s).rst = false → (nextEdge s).stall = false →
      step s = exec i { s with inputs := s.inputs.tail }

/-- Each instruction changes nothing but the engine, the phase, the flag and the port: the parameters, the host's inputs and the model's counter stay; only `INIT` changes the phase; the flag rises only together with a refusal's response (R37, R29, R202). A command either responds or leaves the whole state as at its acceptance: that a command that never responds (R187) shows `R` and `CUR` unchanged meanwhile is the model's choice, log entry 8. -/
def Obligations.CommandsKeepTheirFrame : Prop :=
  ∀ (i : Instr) (s t : State), exec i s = .next t →
    t.inst = s.inst ∧ t.inputs = s.inputs ∧ t.freeCount = s.freeCount ∧
    (t.phase = s.phase ∨ (i.op = 0b01#2 ∧ s.phase = .unconstructed ∧ t.phase = .ready)) ∧
    (t.flt = s.flt ∨
      (t.flt = true ∧ t.eng = s.eng ∧ t.phase = s.phase ∧
        ∃ r, t.port = .responding r ∧ r.status ≠ .ok)) ∧
    (t = s ∨ ∃ r, t.port = .responding r)

/-! ## The handshake and RESET -/

/-- An idle block accepts the word presented, or waits; nothing else changes (R181). -/
def Obligations.IdleBlockAcceptsOrWaits : Prop :=
  ∀ s : State, s.port = .idle → (nextEdge s).rst = false →
    step s = .next
      { s with
        inputs := s.inputs.tail
        port := if (nextEdge s).cmdValid then .running (nextEdge s).cmdWord else .idle }

/-- A response is held unchanged until the host takes it (R181). -/
def Obligations.ResponseIsHeldUntilTaken : Prop :=
  ∀ (s : State) (r : Response), s.port = .responding r → (nextEdge s).rst = false →
    step s = .next
      { s with
        inputs := s.inputs.tail
        port := if (nextEdge s).rspReady then .idle else .responding r }

/-- While `busy` = 1 the command port is not looked at: one command at a time (R182). -/
def Obligations.BusyBlockIgnoresTheCommandPort : Prop :=
  ∀ (s : State) (p : Edge) (rest : List Edge) (v : Bool) (w : CommandWord), s.busy = true →
    step { s with inputs := { p with cmdValid := v, cmdWord := w } :: rest } =
      step { s with inputs := p :: rest }

/-- A host that presents a word to an idle block, lets it complete and takes the response has performed exactly that command (R181, R182, R185): these are the edges of a line of a program. -/
def Obligations.ThreeEdgesPerformACommand : Prop :=
  ∀ (s t : State) (w : CommandWord) (rest : List Edge) (r : Response), s.port = .idle →
    command w { s with port := .running w, inputs := { rspReady := true } :: rest } = .next t →
    t.port = .responding r →
      run 3 { s with inputs := (Event.command w).edges ++ rest } =
        .next { t with port := .idle, inputs := rest }

/-- Edges that stall a command in progress only delay it: after any number of them it completes as it would have at once (R182; the field stall is the model's, log entry 9). -/
def Obligations.StallsOnlyDelay : Prop :=
  ∀ (k : Nat) (s : State) (w : CommandWord) (rest : List Edge), s.port = .running w →
    run (k + 1) { s with inputs := List.replicate k { stall := true } ++ {} :: rest } =
      command w { s with inputs := rest }

/-- RESET at any edge, whatever the block was doing: UNCONSTRUCTED, `FLT` = 0, no command in progress and no response, all outputs as R34 says, the parameters kept; the state after the first RESET shows the same outputs (R184, R34). Nothing is said of `R`, `CUR` and the model's counter. -/
def Obligations.ResetFromAnyState : Prop :=
  (∀ s : State, (nextEdge s).rst = true →
    ∃ e k, step s = .next
      { s with
        eng := e
        phase := .unconstructed
        flt := false
        port := .idle
        inputs := s.inputs.tail
        freeCount := k } ∧
      ∀ t, step s = .next t → t.outputs = State.reset.outputs) ∧
  State.reset.phase = .unconstructed ∧
  State.reset.outputs =
    { cmdReady := true, rspValid := false, rspStatus := none, rspBit := none, rspData := none,
      ready := false, flt := false, busy := false }

/-! ## The whole machine -/

/-- The invariant is kept by every step from every state that has it (R25, R26, R30, R79, R80, R159, R163). -/
def Obligations.InvariantIsKeptByEveryStep : Prop :=
  ∀ s t : State, Invariant s → step s = .next t → Invariant t

/-- The invariant holds after RESET, for every instance whose parameters are well formed and whatever the host will drive (R34). -/
def Obligations.InvariantHoldsAtReset : Prop :=
  ∀ (p : Config.Params) (edges : List Edge), p.wf = true →
    Invariant { State.reset with inst := p, inputs := edges }

/-- No step stops the machine: nothing can raise anything but a refusal's response (R200). -/
def Obligations.EveryStepAnswersANextState : Prop :=
  ∀ s : State, ∃ t, step s = .next t

/-- Only RESET leaves READY; UNCONSTRUCTED is left only by an `INIT` that runs; RESET goes to UNCONSTRUCTED from any phase (R26). -/
def Obligations.OnlyResetLeavesReady : Prop :=
  ∀ s t : State, step s = .next t →
    (s.phase = .ready → t.phase = .ready ∨ (resetNext s = true ∧ t.phase = .unconstructed)) ∧
    (s.phase = .unconstructed → t.phase = .unconstructed ∨
      (t.phase = .ready ∧ resetNext s = false ∧ ∃ w, s.port = .running w ∧ opField w = 0b01#2)) ∧
    (resetNext s = true → t.phase = .unconstructed)

/-- `FLT`: RESET clears it and nothing else does; it rises exactly when a command is refused; and it changes the meaning of no command (R27). -/
def Obligations.FlagRisesOnlyByRefusal : Prop :=
  (∀ s t : State, step s = .next t →
    (resetNext s = true → t.flt = false) ∧
    (resetNext s = false → s.flt = true → t.flt = true) ∧
    (resetNext s = false → s.flt = false →
      (t.flt = true ↔ (∃ w, s.port = .running w) ∧ ∃ r, t.port = .responding r ∧ r.status ≠ .ok))) ∧
  ∀ (w : CommandWord) (s t : State), command w { s with flt := false } = .next t →
    command w { s with flt := true } = .next { t with flt := true }

/-- The parameters of the instance never change (R9, R29). -/
def Obligations.ParametersNeverChange : Prop :=
  ∀ (k : Nat) (s t : State), run k s = .next t → t.inst = s.inst

/-- What `R` and `CUR` hold before construction is never seen: two blocks that are UNCONSTRUCTED and differ only in them show the same outputs after any number of steps, whatever the host drives (R34, U9). -/
def Obligations.UnspecifiedValuesAreNeverSeen : Prop :=
  ∀ (k : Nat) (s t t' : State) (e e' : Engine), s.phase = .unconstructed →
    run k { s with eng := e } = .next t → run k { s with eng := e' } = .next t' →
      t.outputs = t'.outputs

/-- Under correct usage (RESET, one `INIT`, then only well-formed queries) `FLT` stays 0 and every response has status OK (R200), with any stalls, and any waiting between RESET and `INIT` and after it. -/
def Obligations.CorrectUseIsNeverRefused : Prop :=
  ∀ (s t : State) (i : Instr) (reset init : Edge) (wait rest : List Edge) (k : Nat),
    reset.rst = true →
    (∀ p, p ∈ wait → p.rst = false ∧ p.cmdValid = false) →
    i.op = 0b01#2 → init.rst = false → init.cmdValid = true → init.cmdWord = encode i →
    (∀ p, p ∈ rest → p.rst = false ∧
      (p.cmdValid = true → p.cmdWord = encode .nextbit ∨ p.cmdWord = encode .nextfe)) →
    run (k + 1) { s with inputs := reset :: wait ++ init :: rest } = .next t →
      t.flt = false ∧ ∀ r, t.response = some r → r.status = .ok

/-! ## The parameters of an instance -/

/-- `Parse` can be any total function of the buffer: for every such function and every buffer size there is a supplied `Parse` that gives its verdict on every buffer of that size (R9, R155). -/
def Obligations.SuppliedParseIsAnyTotalFunction : Prop :=
  ∀ (f : List Byte → Bool) (n : Nat), ∃ spans, ∀ (p : Config.Params) (buf : List Byte),
    p.reprBytes = n → p.parse = .supplied spans → buf.length = n → accepts p buf = f buf

/-- With a `Parse` that rejects every buffer of the instance's size, `NEXTFE` never responds: after any number of edges without RESET it is still in progress (R162, R187). That the state shown meanwhile is the one the command was accepted in is the model's choice, log entry 8. -/
def Obligations.RejectAllNeverResponds : Prop :=
  ∀ (s : State) (w : CommandWord) (k : Nat), s.port = .running w → decode w = .command .nextfe →
    s.phase = .ready → s.eng.reg ≠ 0#80 →
    (∀ buf, buf.length = s.inst.reprBytes → accepts s.inst buf = false) →
    (∀ p, p ∈ s.inputs.take k → p.rst = false) →
      run k s = .next { s with inputs := s.inputs.drop k }

/-- The block never interprets a tag: with other tag values every run goes the same way (R10, spec/30_encoding.md R77). -/
def Obligations.TagsAreNeverInterpreted : Prop :=
  ∀ (k : Nat) (s t : State) (g : Config.Tags), run k s = .next t →
    run k (withTags g s) = .next (withTags g t)

/-- The word of a program's `INIT` line whose `fk` and `sb` are spelled by name holds the instance's tags in their slots, whatever those are; with the defaults, `fk` = binary is 0 and prime 1, `sb` = pow is 0 and inv 1 (R10, R85; log entry 14). -/
def Obligations.NamedSeedsHoldTheTags : Prop :=
  (∀ (g : Config.Tags) (fk : Config.FieldKind) (sb : Config.SboxKind) (n t rf rp : Nat), n < 4096 → t < 4096 →
    rf < 1024 → rp < 1024 →
      (Line.init { fk := .variant fk, sb := .variant sb, n := n, t := t, rf := rf, rp := rp }).events g =
        some [.command (BitVec.ofNat 52 (2 ^ 50 + (g.fieldKind fk).toNat * 2 ^ 48 +
          (g.sboxKind sb).toNat * 2 ^ 44 + n * 2 ^ 32 + t * 2 ^ 20 + rf * 2 ^ 10 + rp))]) ∧
  Config.Tags.fieldKind {} .binary = 0 ∧ Config.Tags.fieldKind {} .primeOrder = 1 ∧
  Config.Tags.sboxKind {} .powerMap = 0 ∧ Config.Tags.sboxKind {} .inverseMap = 1
end

