-- ==== Sys2Proof/Laws/Bits.lean ====
section
/-! SUPPORT. Bits of the Register by the spec's index: extensionality and the words built bit by bit. -/

namespace Sys2Proof.Laws

open Sys2Proof.Machine

/-- Two words with the same bits, index 0 the most significant, are equal. -/
theorem word_ext {w : Nat} {x y : BitVec w} (h : ∀ j, j < w → x.getMsbD j = y.getMsbD j) : x = y := by
  refine BitVec.eq_of_getMsbD_eq fun i hi => h i hi

theorem register_ext {x y : Register} (h : ∀ j, j < 80 → bit x j = bit y j) : x = y :=
  word_ext h

@[simp] theorem bit_zero (j : Nat) : bit 0#80 j = false := by simp [bit]

theorem bit_of_le (r : Register) {j : Nat} (h : 80 ≤ j) : bit r j = false := by
  simp [bit, BitVec.getMsbD, Nat.not_lt.mpr h]

theorem getMsbD_msbFirst (w : Nat) (f : Nat → Bool) (j : Nat) :
    (msbFirst w f).getMsbD j = (decide (j < w) && f j) := by
  induction w generalizing j with
  | zero => simp [msbFirst]
  | succ w ih =>
    rw [msbFirst, BitVec.getMsbD_concat, ih]
    by_cases h : j < w
    · simp [h, Nat.lt_succ_of_lt h]
    · by_cases h' : j = w
      · subst h'; simp
      · have : ¬ j < w + 1 := by omega
        simp [h, h', this]

theorem bit_msbFirst (f : Nat → Bool) {j : Nat} (h : j < 80) : bit (msbFirst 80 f) j = f j := by
  simp [bit, getMsbD_msbFirst, h]

end Sys2Proof.Laws
end

