-- ==== Sys2Proof/Laws/Buffer.lean ====
section
/-! SUPPORT. The sampler's buffer: its length, its bits and its little-endian value (spec/20_memory.md R55, R56). -/

namespace Sys2Proof.Laws

open Sys2Proof.Machine Sys2Proof.Safety

@[simp] theorem length_zeroBuf (n : Nat) : (zeroBuf n).length = n := by simp [zeroBuf]

@[simp] theorem length_setBufBit (buf : List Byte) (k : Nat) :
    (setBufBit buf k).length = buf.length := by simp [setBufBit]

@[simp] theorem bufBit_zeroBuf (n j : Nat) : bufBit (zeroBuf n) j = false := by
  unfold bufBit zeroBuf
  rw [List.getElem?_replicate]
  split <;> simp

/-- Setting bit `k` of a buffer it lies in sets that bit and no other. -/
theorem bufBit_setBufBit (buf : List Byte) {k : Nat} (hk : k < 8 * buf.length) (j : Nat) :
    bufBit (setBufBit buf k) j = (decide (j = k) || bufBit buf j) := by
  unfold bufBit setBufBit
  rw [List.getElem?_modify]
  have hlt : k / 8 < buf.length := by omega
  by_cases h : k / 8 = j / 8
  · simp only [if_pos h]
    have hj : j / 8 < buf.length := by omega
    rw [List.getElem?_eq_getElem hj]
    have hj8 : j % 8 < 8 := by omega
    have hone : ((1#8 <<< (k % 8)).getLsbD (j % 8)) = decide (j = k) := by
      rw [BitVec.getLsbD_shiftLeft, BitVec.getLsbD_one]
      by_cases hm : j % 8 < k % 8
      · have : j ≠ k := by omega
        simp [hm, this]
      · by_cases he : j % 8 - k % 8 = 0
        · have : j = k := by omega
          subst this; simp [Nat.mod_lt]
        · have : j ≠ k := by omega
          simp [hm, this]
          omega
    simp only [Option.map_eq_map, Option.map_some, Option.getD_some, BitVec.getLsbD_or, hone, Bool.or_comm]
  · have : j ≠ k := fun he => h (by rw [he])
    simp [if_neg h, this]

/-- Bit `k` of the value is bit `k` of the buffer: the value is little-endian in bits and bytes. -/
theorem testBit_bufValue (buf : List Byte) (k : Nat) :
    (bufValue buf).testBit k = bufBit buf k := by
  induction buf generalizing k with
  | nil => simp [bufValue, bufBit]
  | cons b rest ih =>
    have hb : b.toNat < 2 ^ 8 := b.isLt
    rw [bufValue, Nat.add_comm, show (256 : Nat) = 2 ^ 8 from rfl, Nat.testBit_two_pow_mul_add _ hb]
    by_cases hk : k < 8
    · have h0 : k / 8 = 0 := by omega
      have h1 : k % 8 = k := by omega
      simp [hk, bufBit, h0, h1, BitVec.testBit_toNat]
    · obtain ⟨m, rfl⟩ : ∃ m, k = m + 8 := ⟨k - 8, by omega⟩
      have h0 : (m + 8) / 8 = m / 8 + 1 := by omega
      have h1 : (m + 8) % 8 = m % 8 := by omega
      rw [if_neg hk, Nat.add_sub_cancel, ih]
      simp only [bufBit, h0, h1, List.getElem?_cons_succ]

/-- Buffers of one length with the same bits are equal. -/
theorem buf_ext {x y : List Byte} (hl : x.length = y.length) (h : ∀ j, bufBit x j = bufBit y j) : x = y := by
  refine List.ext_getElem hl fun i h1 h2 => ?_
  refine BitVec.eq_of_getLsbD_eq fun j hj => ?_
  have := h (8 * i + j)
  have e0 : (8 * i + j) / 8 = i := by omega
  have e1 : (8 * i + j) % 8 = j := by omega
  simpa [bufBit, e0, e1, List.getElem?_eq_getElem h1, List.getElem?_eq_getElem h2] using this

/-- A buffer of a given size is told by its value. -/
theorem bufValue_injective {x y : List Byte} (hl : x.length = y.length) (h : bufValue x = bufValue y) :
    x = y :=
  buf_ext hl fun j => by rw [← testBit_bufValue, h, testBit_bufValue]

@[simp] theorem length_pack (n : Nat) (ds : List Bool) : (pack n ds).length = n := by simp [pack]

/-- The bits of a packed list. -/
theorem bufBit_pack (n : Nat) (ds : List Bool) {k : Nat} (hk : k < 8 * n) :
    bufBit (pack n ds) k = ds.getD k false := by
  have hlt : k / 8 < n := by omega
  unfold bufBit pack
  rw [List.getElem?_map, List.getElem?_range hlt, Option.map_some, Option.getD_some,
    BitVec.getLsbD_eq_getMsbD]
  have h8 : k % 8 < 8 := by omega
  have : 8 - 1 - k % 8 < 8 := by omega
  simp only [h8, decide_true, Bool.true_and, Laws.getMsbD_msbFirst, this]
  congr 1
  omega

end Sys2Proof.Laws
end

