-- ==== Sys2Proof/Laws/Engine.lean ====
section
/-! SUPPORT. The LFSR Engine: bits of a refilled Register, the bit-serial register, and the raw stream an engine delivers. -/

namespace Sys2Proof.Laws

open Sys2Proof.Machine Sys2Proof.Safety

/-- The feedback function as six taps joined by five exclusive-ors (R120). -/
theorem feedback_eq (r : Register) (i : Nat) :
    feedback r i =
      (bit r i ^^ bit r (i + 13) ^^ bit r (i + 23) ^^ bit r (i + 38) ^^ bit r (i + 51) ^^ bit r (i + 62)) := by
  simp [feedback, Config.taps]

/-- Every bit of a refilled Register (R121). -/
theorem bit_refillReg (r : Register) {j : Nat} (h : j < 80) :
    bit (refillReg r) j = if j < 72 then bit r (j + 8) else feedback r (j - 72) := by
  unfold bit refillReg
  rw [BitVec.getMsbD_or, BitVec.getMsbD_shiftLeft]
  have hw : ((newBits r).setWidth 80).getMsbD j =
      (decide (72 ≤ j) && (newBits r).getMsbD (j - 72)) := by
    rw [BitVec.getMsbD_setWidth]
    by_cases hj : 72 ≤ j
    · have : j + 8 - 80 = j - 72 := by omega
      simp [hj, this]
    · have : ¬ (80 - 8 ≤ j) := by omega
      simp [hj]
  rw [hw, newBits, getMsbD_msbFirst]
  by_cases hj : j < 72
  · have : ¬ 72 ≤ j := by omega
    have h8 : j + 8 < 80 := by omega
    simp [hj, this, Config.refillBits]
  · have h1 : 72 ≤ j := by omega
    have h2 : j - 72 < 8 := by omega
    simp [hj, h1, h2, Config.refillBits]

/-- Every bit of the bit-serial step (R122). -/
theorem bit_serialStep (r : Register) {j : Nat} (h : j < 80) :
    bit (serialStep r) j = if j < 79 then bit r (j + 1) else feedback r 0 :=
  bit_msbFirst _ h

/-- `k` bit-serial steps shift the Register by `k` and append a stream. -/
def streamBit (r : Register) (m : Nat) : Bool := bit (serialStep^[m] r) 0

theorem bit_serial_iterate (r : Register) (m : Nat) {j : Nat} (h : j < 80) :
    bit (serialStep^[m] r) j = streamBit r (m + j) := by
  induction j generalizing m with
  | zero => rfl
  | succ j ih =>
    have := ih (m + 1) (by omega)
    rw [Function.iterate_succ_apply', bit_serialStep _ (by omega), if_pos (by omega)] at this
    rw [this]; congr 1; omega

theorem streamBit_lt (r : Register) {j : Nat} (h : j < 80) : streamBit r j = bit r j := by
  have := bit_serial_iterate r 0 h
  simpa using this.symm

/-- The recurrence of R125. -/
theorem streamBit_add_eighty (r : Register) (m : Nat) :
    streamBit r (m + 80) =
      (streamBit r m ^^ streamBit r (m + 13) ^^ streamBit r (m + 23) ^^ streamBit r (m + 38) ^^
        streamBit r (m + 51) ^^ streamBit r (m + 62)) := by
  have h : streamBit r (m + 80) = bit (serialStep^[m + 1] r) 79 := by
    rw [bit_serial_iterate _ _ (by omega)]
  rw [h, Function.iterate_succ_apply', bit_serialStep _ (by omega), if_neg (by omega), feedback_eq]
  simp only [Nat.zero_add]
  rw [bit_serial_iterate _ _ (by omega), bit_serial_iterate _ _ (by omega),
    bit_serial_iterate _ _ (by omega), bit_serial_iterate _ _ (by omega),
    bit_serial_iterate _ _ (by omega), bit_serial_iterate _ _ (by omega)]
  simp

theorem streamBit_isStreamOf (r : Register) : IsStreamOf r (streamBit r) :=
  ⟨fun _ h => streamBit_lt r h, streamBit_add_eighty r⟩

/-- A stream is fixed by its first 80 bits. -/
theorem isStreamOf_unique {r : Register} {s s' : Nat → Bool} (h : IsStreamOf r s)
    (h' : IsStreamOf r s') (m : Nat) : s m = s' m := by
  induction m using Nat.strong_induction_on with
  | _ m ih =>
    by_cases hm : m < 80
    · rw [h.1 m hm, h'.1 m hm]
    · obtain ⟨k, rfl⟩ : ∃ k, m = k + 80 := ⟨m - 80, by omega⟩
      rw [h.2, h'.2, ih k (by omega), ih (k + 13) (by omega), ih (k + 23) (by omega),
        ih (k + 38) (by omega), ih (k + 51) (by omega), ih (k + 62) (by omega)]

theorem streamBit_iterate (r : Register) (k m : Nat) :
    streamBit (serialStep^[k] r) m = streamBit r (k + m) := by
  unfold streamBit; rw [← Function.iterate_add_apply, Nat.add_comm]

/-! ## What the engine delivers -/

/-- The raw bits still to come, in the stream of the engine's own Register. -/
def tail (e : Engine) (m : Nat) : Bool := streamBit e.reg (e.cur.val + m)

theorem tail_add_eighty (e : Engine) (m : Nat) :
    tail e (m + 80) =
      (tail e m ^^ tail e (m + 13) ^^ tail e (m + 23) ^^ tail e (m + 38) ^^ tail e (m + 51) ^^
        tail e (m + 62)) := by
  unfold tail
  rw [← Nat.add_assoc, streamBit_add_eighty]
  simp only [Nat.add_assoc]

/-- A refill moves the Register eight places along its stream. -/
theorem streamBit_refillReg (r : Register) (m : Nat) :
    streamBit (refillReg r) m = streamBit r (m + 8) := by
  refine isStreamOf_unique (streamBit_isStreamOf _) (s' := fun m => streamBit r (m + 8)) ⟨?_, ?_⟩ m
  · intro j hj
    rw [bit_refillReg _ hj]
    split
    · exact streamBit_lt r (by omega)
    · obtain ⟨i, rfl⟩ : ∃ i, j = i + 72 := ⟨j - 72, by omega⟩
      show streamBit r (i + 80) = _
      rw [streamBit_add_eighty, feedback_eq, Nat.add_sub_cancel]
      rw [streamBit_lt _ (by omega), streamBit_lt _ (by omega), streamBit_lt _ (by omega),
        streamBit_lt _ (by omega), streamBit_lt _ (by omega), streamBit_lt _ (by omega)]
  · intro m
    have := streamBit_add_eighty r (m + 8)
    simp only [Nat.add_right_comm _ 8] at this
    exact this

theorem refillIfSpent_tail (e : Engine) : tail (refillIfSpent e) = tail e := by
  funext m
  unfold refillIfSpent
  split
  · simp only [tail, refill, streamBit_refillReg, ‹e.cur = 80›]
    congr 1
    show 72 + m + 8 = 80 + m
    omega
  · rfl

theorem refillIfSpent_cur_lt (e : Engine) : (refillIfSpent e).cur.val < 80 := by
  unfold refillIfSpent
  split
  · have h : ((e.cur - 8 : Fin 81)).val = 72 := by rw [‹e.cur = 80›]; rfl
    simp [refill, h]
  · have := Fin.val_ne_of_ne ‹¬e.cur = 80›
    have h80 : ((80 : Fin 81)).val = 80 := rfl
    omega

theorem cur_succ_val {c : Fin 81} (h : c.val < 80) : (c + 1).val = c.val + 1 := by
  rw [Fin.val_add_one_of_lt]
  exact Fin.lt_def.mpr (by simpa using h)

/-- A read delivers the next bit of the stream (R124, R125). -/
theorem rawbit_fst (e : Engine) : (rawbit e).1 = tail e 0 := by
  rw [← refillIfSpent_tail e]
  have h := refillIfSpent_cur_lt e
  simp only [rawbit, tail, Nat.add_zero]
  rw [streamBit_lt _ h]

theorem rawbit_tail (e : Engine) (m : Nat) : tail (rawbit e).2 m = tail e (m + 1) := by
  rw [← refillIfSpent_tail e]
  have h := refillIfSpent_cur_lt e
  simp only [rawbit, tail, cur_succ_val h]
  congr 1
  omega

theorem afterRaw_tail (k : Nat) (e : Engine) (m : Nat) : tail (afterRaw k e) m = tail e (m + k) := by
  induction k generalizing e with
  | zero => rfl
  | succ k ih => rw [afterRaw, ih, rawbit_tail]; congr 1

/-- The `m`-th raw bit delivered is the `m`-th bit still to come. -/
theorem rawAt_eq_tail (e : Engine) (m : Nat) : rawAt e m = tail e m := by
  rw [rawAt, rawbit_fst, afterRaw_tail, Nat.zero_add]

theorem afterRaw_add (a b : Nat) (e : Engine) : afterRaw (a + b) e = afterRaw b (afterRaw a e) := by
  induction a generalizing e with
  | zero => simp [afterRaw]
  | succ a ih => rw [Nat.succ_add, afterRaw, ih]; rfl

theorem rawAt_afterRaw (k : Nat) (e : Engine) (m : Nat) : rawAt (afterRaw k e) m = rawAt e (m + k) := by
  simp only [rawAt_eq_tail, afterRaw_tail]

/-! ## A Register whose stream is zero is zero -/

theorem serialStep_eq_zero {r : Register} (h : serialStep r = 0#80) : r = 0#80 := by
  have hb : ∀ j, j < 80 → bit (serialStep r) j = false := fun j _ => by rw [h]; simp
  have hs : ∀ j, j < 79 → bit r (j + 1) = false := fun j hj => by
    have := hb j (by omega)
    rwa [bit_serialStep _ (by omega), if_pos hj] at this
  have h0 : bit r 0 = false := by
    have := hb 79 (by omega)
    rw [bit_serialStep _ (by omega), if_neg (by omega), feedback_eq] at this
    simp only [Nat.zero_add, hs 12 (by omega), hs 22 (by omega), hs 37 (by omega), hs 50 (by omega),
      hs 61 (by omega), Bool.bne_false] at this
    exact this
  apply register_ext
  intro j hj
  rw [bit_zero]
  cases j with
  | zero => exact h0
  | succ j => exact hs j (by omega)

theorem eq_zero_of_stream_zero {r : Register} {k : Nat} (h : ∀ m, streamBit r (k + m) = false) :
    r = 0#80 := by
  have : serialStep^[k] r = 0#80 := register_ext fun j hj => by
    rw [bit_serial_iterate _ _ hj, h, bit_zero]
  clear h
  induction k with
  | zero => exact this
  | succ k ih =>
    rw [Function.iterate_succ_apply'] at this
    exact ih (serialStep_eq_zero this)

theorem reg_eq_zero_of_tail_zero {e : Engine} (h : ∀ m, tail e m = false) : e.reg = 0#80 :=
  eq_zero_of_stream_zero h

theorem streamBit_zero (m : Nat) : streamBit 0#80 m = false := by
  refine isStreamOf_unique (streamBit_isStreamOf _) (s' := fun _ => false) ⟨?_, ?_⟩ m
  · intro j _; simp
  · intro m; rfl

theorem tail_zero_of_reg_zero {e : Engine} (h : e.reg = 0#80) (m : Nat) : tail e m = false := by
  rw [tail, h, streamBit_zero]

theorem rawbit_reg_ne_zero {e : Engine} (h : e.reg ≠ 0#80) : (rawbit e).2.reg ≠ 0#80 := by
  intro h0
  apply h
  have h1 : ∀ m, tail e (m + 1) = false := fun m => by
    rw [← rawbit_tail]; exact tail_zero_of_reg_zero h0 m
  refine eq_zero_of_stream_zero (k := e.cur.val + 1) fun m => ?_
  have := h1 m
  unfold tail at this
  rw [← this]; congr 1; omega

theorem afterRaw_reg_ne_zero (k : Nat) {e : Engine} (h : e.reg ≠ 0#80) :
    (afterRaw k e).reg ≠ 0#80 := by
  induction k generalizing e with
  | zero => exact h
  | succ k ih => exact ih (rawbit_reg_ne_zero h)

end Sys2Proof.Laws
end

