-- ==== Sys2Proof/Laws/Gf2.lean ====
section
/-! SUPPORT. Polynomials over GF(2) as coefficient lists, and how they act on bit sequences by shifting: the algebra behind the bound of spec/70_reset_and_hazards.md R236, without irreducibility. -/

namespace Sys2Proof.Laws.Gf2

/-- The polynomial with coefficients `p`, constant term first, applied to a sequence: the exclusive-or of `s (m + i)` over the coefficients that are 1. -/
def act : List Bool → (Nat → Bool) → Nat → Bool
  | [], _, _ => false
  | b :: p, s, m => (b && s m) ^^ act p s (m + 1)

def add : List Bool → List Bool → List Bool
  | [], q => q
  | p, [] => p
  | a :: p, b :: q => (a ^^ b) :: add p q

def mul : List Bool → List Bool → List Bool
  | [], _ => []
  | b :: p, q => add (if b then q else []) (false :: mul p q)

/-- The polynomial with the given exponents. -/
def poly (exps : List Nat) : List Bool :=
  exps.foldr (fun k p => add (List.replicate k false ++ [true]) p) []

theorem act_add (p q : List Bool) (s : Nat → Bool) (m : Nat) :
    act (add p q) s m = (act p s m ^^ act q s m) := by
  induction p generalizing q m with
  | nil => simp [add, act]
  | cons a p ih =>
    cases q with
    | nil => simp [add, act]
    | cons b q =>
      simp only [add, act, ih]
      cases a <;> cases b <;> cases s m <;> cases act p s (m + 1) <;> cases act q s (m + 1) <;> rfl

theorem act_mono (k : Nat) (s : Nat → Bool) (m : Nat) :
    act (List.replicate k false ++ [true]) s m = s (m + k) := by
  induction k generalizing m with
  | zero => simp [act]
  | succ k ih =>
    rw [List.replicate_succ, List.cons_append, act, ih]
    simp [Nat.add_assoc, Nat.add_comm 1 k]

theorem act_poly (exps : List Nat) (s : Nat → Bool) (m : Nat) :
    act (poly exps) s m = exps.foldr (fun k acc => s (m + k) ^^ acc) false := by
  induction exps with
  | nil => rfl
  | cons k l ih => rw [poly, List.foldr_cons, act_add, act_mono, ← poly, ih, List.foldr_cons]

/-- A polynomial that annihilates a sequence still does after multiplication. -/
theorem act_mul_eq_false (p : List Bool) {q : List Bool} {s : Nat → Bool}
    (h : ∀ m, act q s m = false) (m : Nat) : act (mul p q) s m = false := by
  induction p generalizing m with
  | nil => rfl
  | cons b p ih =>
    rw [mul, act_add, act, ih]
    cases b <;> simp [h, act]

theorem act_zeros (n : Nat) (s : Nat → Bool) (m : Nat) :
    act (List.replicate n false) s m = false := by
  induction n generalizing m with
  | zero => rfl
  | succ n ih => simp [List.replicate_succ, act, ih]

/-- The characteristic polynomial of the stream (spec/41_lfsr_engine.md R125). -/
def charExps : List Nat := [0, 13, 23, 38, 51, 62, 80]

/-- The square of the characteristic polynomial is the polynomial of the doubled exponents. -/
theorem char_sq : mul (poly charExps) (poly charExps) = poly (charExps.map (2 * ·)) := by
  decide +kernel

/-- The halves of the even exponents. -/
def evenExps : List Nat := [0, 19, 31, 40]
/-- The halves, rounded down, of the odd exponents. -/
def oddExps : List Nat := [6, 11, 25]

/-- The two halves of the characteristic polynomial have no common factor. -/
theorem bezout :
    add (mul (poly [0, 6, 7, 9, 10, 12, 14, 15, 16, 17, 18, 22, 23, 24]) (poly evenExps))
      (mul (poly [0, 1, 3, 4, 5, 11, 12, 13, 24, 27, 28, 31, 32, 33, 37, 38, 39]) (poly oddExps)) =
      true :: List.replicate 64 false := by
  decide +kernel

/-- A sequence that both halves annihilate is zero. -/
theorem eq_false_of_halves {s : Nat → Bool} (he : ∀ m, act (poly evenExps) s m = false)
    (ho : ∀ m, act (poly oddExps) s m = false) (m : Nat) : s m = false := by
  have h := congrArg (fun p => act p s m) bezout
  simp only [act_add, act_mul_eq_false _ he, act_mul_eq_false _ ho, act, act_zeros] at h
  simpa using h.symm

/-- A sequence with the stream's recurrence whose first 80 entries of even index are 0 is zero: R236 without the field. -/
theorem eq_false_of_even_zero {s : Nat → Bool} (hs : ∀ m, act (poly charExps) s m = false)
    (h0 : ∀ j, j < 80 → s (2 * j) = false) (m : Nat) : s m = false := by
  have hsq : ∀ m, act (poly (charExps.map (2 * ·))) s m = false := fun m => by
    rw [← char_sq]; exact act_mul_eq_false _ hs m
  have heven : ∀ j, s (2 * j) = false := by
    intro j
    induction j using Nat.strong_induction_on with
    | _ j ih =>
      by_cases hj : j < 80
      · exact h0 j hj
      · obtain ⟨k, rfl⟩ : ∃ k, j = k + 80 := ⟨j - 80, by omega⟩
        have h := hsq (2 * k)
        simp only [act_poly, charExps, List.map, List.foldr, ← Nat.mul_add] at h
        rw [ih (k + 0) (by omega), ih (k + 13) (by omega), ih (k + 23) (by omega),
          ih (k + 38) (by omega), ih (k + 51) (by omega), ih (k + 62) (by omega)] at h
        simpa using h
  have hodd : ∀ j, s (2 * j + 1) = false := by
    refine eq_false_of_halves (s := fun j => s (2 * j + 1)) ?_ ?_
    · intro j
      have h := hs (2 * j + 1)
      simp only [act_poly, charExps, evenExps, List.foldr] at h ⊢
      have e13 : s (2 * j + 1 + 13) = false := by
        rw [show 2 * j + 1 + 13 = 2 * (j + 7) by omega]; exact heven _
      have e23 : s (2 * j + 1 + 23) = false := by
        rw [show 2 * j + 1 + 23 = 2 * (j + 12) by omega]; exact heven _
      have e51 : s (2 * j + 1 + 51) = false := by
        rw [show 2 * j + 1 + 51 = 2 * (j + 26) by omega]; exact heven _
      rw [e13, e23, e51] at h
      rw [show 2 * (j + 0) + 1 = 2 * j + 1 + 0 by omega, show 2 * (j + 19) + 1 = 2 * j + 1 + 38 by omega,
        show 2 * (j + 31) + 1 = 2 * j + 1 + 62 by omega, show 2 * (j + 40) + 1 = 2 * j + 1 + 80 by omega]
      simpa using h
    · intro j
      have h := hs (2 * j)
      simp only [act_poly, charExps, oddExps, List.foldr] at h ⊢
      have e38 : s (2 * j + 38) = false := by
        rw [show 2 * j + 38 = 2 * (j + 19) by omega]; exact heven _
      have e62 : s (2 * j + 62) = false := by
        rw [show 2 * j + 62 = 2 * (j + 31) by omega]; exact heven _
      have e80 : s (2 * j + 80) = false := by
        rw [show 2 * j + 80 = 2 * (j + 40) by omega]; exact heven _
      rw [e38, e62, e80, Nat.add_zero, heven j] at h
      rw [show 2 * (j + 6) + 1 = 2 * j + 13 by omega, show 2 * (j + 11) + 1 = 2 * j + 23 by omega,
        show 2 * (j + 25) + 1 = 2 * j + 51 by omega]
      simpa using h
  rcases Nat.even_or_odd' m with ⟨k, rfl | rfl⟩
  · exact heven k
  · exact hodd k

end Sys2Proof.Laws.Gf2
end

