-- ==== Sys2Proof/Laws/Extractor.lean ====
section
/-! SUPPORT. The Extractor: what a bounded number of trials does, and that 80 trials decide the loop without a bound (spec/70_reset_and_hazards.md R236). -/

namespace Sys2Proof.Laws

open Sys2Proof.Machine Sys2Proof.Safety

/-- The loop in the terms of the raw stream: it ends with the first pair whose control is 1. -/
theorem dbitLoop_eq_some_iff (fuel : Nat) (e : Engine) (b : Bool) (e' : Engine) :
    dbitLoop fuel e = some (b, e') ↔
      ∃ t, t < fuel ∧ FirstControl e t ∧ b = candidateBit e t ∧ e' = afterRaw (2 * t + 2) e := by
  induction fuel generalizing e with
  | zero => simp [dbitLoop]
  | succ fuel ih =>
    have hc : ∀ i, controlBit (afterRaw 2 e) i = controlBit e (i + 1) := fun i => by
      simp only [controlBit, rawAt_afterRaw]; congr 1
    have hd : ∀ i, candidateBit (afterRaw 2 e) i = candidateBit e (i + 1) := fun i => by
      simp only [candidateBit, rawAt_afterRaw]; congr 1
    have h0 : controlBit e 0 = (rawbit e).1 := rfl
    have h1 : candidateBit e 0 = (rawbit (rawbit e).2).1 := rfl
    have h2 : afterRaw 2 e = (rawbit (rawbit e).2).2 := rfl
    rw [dbitLoop]
    by_cases h : (rawbit e).1 = true
    · simp only [h, if_true]
      constructor
      · intro hh
        have hh := Option.some.inj hh
        refine ⟨0, by omega, ⟨fun i hi => absurd hi (by omega), by rw [h0, h]⟩, ?_, ?_⟩
        · rw [h1, hh]
        · show e' = afterRaw 2 e
          rw [h2, hh]
      · rintro ⟨t, _, ht, rfl, rfl⟩
        cases t with
        | zero => exact congrArg some (Prod.ext h1.symm h2.symm)
        | succ t => have := ht.1 0 (by omega); rw [h0, h] at this; cases this
    · have h' : controlBit e 0 = false := by rw [h0]; simpa using h
      simp only [h, if_false, Bool.false_eq_true]
      rw [← h2, ih]
      constructor
      · rintro ⟨t, ht, ⟨hf, hl⟩, rfl, rfl⟩
        refine ⟨t + 1, by omega, ⟨?_, by rw [← hc]; exact hl⟩, hd t, ?_⟩
        · intro i hi
          cases i with
          | zero => exact h'
          | succ i => rw [← hc]; exact hf i (by omega)
        · rw [← afterRaw_add]; congr 1; omega
      · rintro ⟨t, ht, ⟨hf, hl⟩, rfl, rfl⟩
        cases t with
        | zero => rw [h'] at hl; cases hl
        | succ t =>
          refine ⟨t, by omega, ⟨fun i hi => by rw [hc]; exact hf _ (by omega), by rw [hc]; exact hl⟩,
            (hd t).symm, ?_⟩
          rw [← afterRaw_add]; congr 1; omega

/-- Eighty control bits of 0 in a row: the Register is zero. -/
theorem reg_eq_zero_of_controls_zero {e : Engine} (h : ∀ j, j < 80 → controlBit e j = false) :
    e.reg = 0#80 := by
  refine reg_eq_zero_of_tail_zero (Gf2.eq_false_of_even_zero (fun m => ?_) fun j hj => ?_)
  · rw [Gf2.act_poly]
    simp only [Gf2.charExps, List.foldr, Nat.add_zero, Bool.xor_false]
    rw [tail_add_eighty]
    cases tail e m <;> cases tail e (m + 13) <;> cases tail e (m + 23) <;> cases tail e (m + 38) <;>
      cases tail e (m + 51) <;> cases tail e (m + 62) <;> rfl
  · rw [← rawAt_eq_tail]; exact h j hj

/-- The first control bit of 1, if there is one, comes within 80 trials. -/
theorem firstControl_lt {e : Engine} {t : Nat} (h : FirstControl e t) : t < 80 := by
  by_contra hlt
  have hz : e.reg = 0#80 :=
    reg_eq_zero_of_controls_zero fun j hj => h.1 j (by omega)
  have := h.2
  rw [controlBit, rawAt_eq_tail, tail_zero_of_reg_zero hz] at this
  cases this

/-- From a Register that is not zero a control bit of 1 comes. -/
theorem exists_firstControl {e : Engine} (h : e.reg ≠ 0#80) : ∃ t, FirstControl e t := by
  by_contra hn
  apply h
  refine reg_eq_zero_of_controls_zero fun j _ => ?_
  induction j using Nat.strong_induction_on with
  | _ j ih =>
    by_contra hj
    exact hn ⟨j, fun i hi => ih i hi (by omega), by simpa using hj⟩

/-- `dbit` answers none exactly where no control bit is ever 1, that is, on the zero Register. -/
theorem dbit_eq_none_iff (e : Engine) : dbit e = none ↔ e.reg = 0#80 := by
  constructor
  · intro h
    by_contra hz
    obtain ⟨t, ht⟩ := exists_firstControl hz
    have := (dbitLoop_eq_some_iff trialBound e _ _).mpr ⟨t, firstControl_lt ht, ht, rfl, rfl⟩
    rw [← dbit, h] at this
    cases this
  · intro h
    cases hd : dbit e with
    | none => rfl
    | some r =>
      obtain ⟨t, _, ht, _⟩ := (dbitLoop_eq_some_iff trialBound e r.1 r.2).mp hd
      have := ht.2
      rw [controlBit, rawAt_eq_tail, tail_zero_of_reg_zero h] at this
      cases this

/-! ## Counting pairs -/

theorem controlBit_afterRaw (m : Nat) (e : Engine) (i : Nat) :
    controlBit (afterRaw (2 * m) e) i = controlBit e (m + i) := by
  simp only [controlBit, rawAt_afterRaw]; congr 1; omega

/-- The next `m` pairs hold exactly `n` controls of 1, the last pair's among them: what drawing `n` derived bits reads. -/
def DrawsPairs (e : Engine) (n m : Nat) : Prop :=
  (List.range m).countP (controlBit e) = n ∧ (m = 0 ∨ controlBit e (m - 1) = true)

theorem DrawsPairs.zero (e : Engine) : DrawsPairs e 0 0 := ⟨rfl, .inl rfl⟩

theorem DrawsPairs.le {e : Engine} {n m : Nat} (h : DrawsPairs e n m) : n ≤ m := by
  have := List.countP_le_length (p := controlBit e) (l := List.range m)
  rw [h.1, List.length_range] at this
  exact this

theorem DrawsPairs.add {e : Engine} {n m n' m' : Nat} (h : DrawsPairs e n m)
    (h' : DrawsPairs (afterRaw (2 * m) e) n' m') : DrawsPairs e (n + n') (m + m') := by
  have hc : controlBit (afterRaw (2 * m) e) = controlBit e ∘ (m + ·) :=
    funext (controlBit_afterRaw m e)
  refine ⟨?_, ?_⟩
  · rw [List.range_add, List.countP_append, h.1, List.countP_map, ← hc, h'.1]
  · by_cases hm : m' = 0
    · subst hm; exact h.2
    · right
      have h2 := h'.2.resolve_left hm
      rw [controlBit_afterRaw, show m + (m' - 1) = m + m' - 1 by omega] at h2
      exact h2

/-- A derived bit reads the pairs up to the first whose control is 1. -/
theorem drawsPairs_of_firstControl {e : Engine} {t : Nat} (h : FirstControl e t) :
    DrawsPairs e 1 (t + 1) := by
  refine ⟨?_, .inr h.2⟩
  have h0 : (List.range t).countP (controlBit e) = 0 := by
    rw [List.countP_eq_zero]
    intro i hi
    simp [h.1 i (List.mem_range.mp hi)]
  rw [List.range_succ, List.countP_append, h0]
  simp [h.2]

/-- A derived bit costs the pairs up to the first control of 1, at most 80 (spec/42_extractor.md R142, spec/70_reset_and_hazards.md R236). -/
theorem dbit_pairs {e e' : Engine} {b : Bool} (h : dbit e = some (b, e')) :
    ∃ m, m ≤ 80 ∧ DrawsPairs e 1 m ∧ e' = afterRaw (2 * m) e := by
  obtain ⟨t, hl, ht, _, he⟩ := (dbitLoop_eq_some_iff trialBound e b e').mp h
  exact ⟨t + 1, hl, drawsPairs_of_firstControl ht, he⟩

/-- Pairs of reads keep the Cursor among 74, 76, 78 and 80 (spec/10_state.md R25). -/
theorem cur_afterRaw_pairs (m : Nat) {e : Engine}
    (h : e.cur = 74 ∨ e.cur = 76 ∨ e.cur = 78 ∨ e.cur = 80) :
    (afterRaw (2 * m) e).cur = 74 ∨ (afterRaw (2 * m) e).cur = 76 ∨ (afterRaw (2 * m) e).cur = 78 ∨
      (afterRaw (2 * m) e).cur = 80 := by
  induction m generalizing e with
  | zero => exact h
  | succ m ih =>
    rw [show 2 * (m + 1) = 2 + 2 * m by omega, afterRaw_add]
    apply ih
    obtain ⟨r, c⟩ := e
    rcases h with h | h | h | h <;> (simp only at h; subst h)
    · exact .inr (.inl rfl)
    · exact .inr (.inr (.inl rfl))
    · exact .inr (.inr (.inr rfl))
    · exact .inl rfl

end Sys2Proof.Laws
end

