-- ==== Sys2Proof/Laws/PerInstr.lean ====
section
/-! SUPPORT. Statements about every instruction as syntax, one lemma per constructor. -/

namespace Sys2Proof.Laws.Fields

open Sys2Proof

/-- The two fields of an instruction's word are its operation code and its payload (spec/30_encoding.md R70, R71). -/
def Statement (i : Instr) : Prop := opField (encode i) = i.op ∧ Sys2Proof.payload (encode i) = i.payload

theorem of_append (i : Instr) : Statement i :=
  ⟨BitVec.extractLsb'_append_eq_left, BitVec.extractLsb'_append_eq_right⟩

theorem init (fk : BitVec 2) (sb : BitVec 4) (n t : BitVec 12) (rf rp : BitVec 10) :
    Statement (.init fk sb n t rf rp) := of_append _

theorem nextbit : Statement .nextbit := of_append _

theorem nextfe : Statement .nextfe := of_append _

end Sys2Proof.Laws.Fields
end

