-- ==== Sys2Proof/Laws/Sampler.lean ====
section
/-! SUPPORT. The Sampler: attempts from a non-zero Register return, the buffer's bits, and that the number of engine states decides the rejection loop without a cap (spec/43_field_sampler.md R162). -/

namespace Sys2Proof.Laws

open Sys2Proof.Machine Sys2Proof.Safety

/-! ## The engine under DBIT and ATTEMPT -/

theorem dbit_reg_ne_zero {e : Engine} {r : Bool × Engine} (hd : dbit e = some r) :
    e.reg ≠ 0#80 ∧ r.2.reg ≠ 0#80 := by
  have hz : e.reg ≠ 0#80 := fun h => by
    rw [(dbit_eq_none_iff e).mpr h] at hd; cases hd
  obtain ⟨t, _, _, _, he⟩ := (dbitLoop_eq_some_iff trialBound e r.1 r.2).mp hd
  exact ⟨hz, by rw [he]; exact afterRaw_reg_ne_zero _ hz⟩

theorem attemptLoop_isSome (n k : Nat) (buf : List Byte) {e : Engine} (h : e.reg ≠ 0#80) :
    ∃ r, attemptLoop n k buf e = some r ∧ r.2.reg ≠ 0#80 := by
  induction n generalizing k buf e with
  | zero => exact ⟨_, rfl, h⟩
  | succ n ih =>
    cases hd : dbit e with
    | none => exact absurd ((dbit_eq_none_iff e).mp hd) h
    | some r =>
      obtain ⟨q, hq⟩ := ih (k + 1) (if r.1 then setBufBit buf k else buf) (dbit_reg_ne_zero hd).2
      exact ⟨q, by rw [attemptLoop, hd]; exact hq.1, hq.2⟩

/-- An attempt from a non-zero Register returns, to a non-zero Register. -/
theorem attempt_isSome (p : Config.Params) {e : Engine} (h : e.reg ≠ 0#80) :
    ∃ r, attempt p e = some r ∧ r.2.reg ≠ 0#80 := attemptLoop_isSome _ _ _ h

theorem attemptAt_isSome (p : Config.Params) (k : Nat) {e : Engine} (h : e.reg ≠ 0#80) :
    ∃ r, attemptAt p k e = some r ∧ r.2.reg ≠ 0#80 := by
  induction k generalizing e with
  | zero => exact attempt_isSome p h
  | succ k ih =>
    obtain ⟨r, hr, hz⟩ := attempt_isSome p h
    obtain ⟨q, hq, hqz⟩ := ih hz
    exact ⟨q, by rw [attemptAt, hr]; exact hq, hqz⟩

/-- `n` derived bits cost the pairs up to the `n`-th control of 1, at most `80 * n`. -/
theorem attemptLoop_pairs {n k : Nat} {buf buf' : List Byte} {e e' : Engine}
    (h : attemptLoop n k buf e = some (buf', e')) :
    buf'.length = buf.length ∧ ∃ m, m ≤ 80 * n ∧ DrawsPairs e n m ∧ e' = afterRaw (2 * m) e := by
  induction n generalizing k buf e with
  | zero => cases h; exact ⟨rfl, 0, by omega, .zero _, rfl⟩
  | succ n ih =>
    rw [attemptLoop] at h
    cases hd : dbit e with
    | none => rw [hd] at h; cases h
    | some r =>
      rw [hd] at h
      obtain ⟨hl, m, hm, hp, he⟩ := ih h
      obtain ⟨m', hm', hp', he'⟩ := dbit_pairs (e := e) (b := r.1) (e' := r.2) hd
      refine ⟨by rw [hl]; split <;> simp, m' + m, by omega, ?_, ?_⟩
      · rw [Nat.add_comm n 1]; exact hp'.add (he' ▸ hp)
      · rw [he, he', ← afterRaw_add]; congr 1; omega

/-- Every buffer of an attempt has the instance's size. -/
theorem attempt_length {p : Config.Params} {e : Engine} {r : List Byte × Engine}
    (h : attempt p e = some r) : r.1.length = p.reprBytes := by
  rw [(attemptLoop_pairs (buf' := r.1) (e' := r.2) h).1, length_zeroBuf]

/-- The attempts 0 to `k` cost the pairs up to the last of their `(k + 1) * NUM_BITS` controls of 1 (spec/43_field_sampler.md R161). -/
theorem attemptAt_pairs {p : Config.Params} {k : Nat} {e e' : Engine} {buf : List Byte}
    (h : attemptAt p k e = some (buf, e')) :
    ∃ m, m ≤ 80 * ((k + 1) * p.numBits) ∧ DrawsPairs e ((k + 1) * p.numBits) m ∧
      e' = afterRaw (2 * m) e := by
  induction k generalizing e with
  | zero => simpa using (attemptLoop_pairs h).2
  | succ k ih =>
    rw [attemptAt] at h
    cases hd : attempt p e with
    | none => rw [hd] at h; cases h
    | some r =>
      rw [hd] at h
      obtain ⟨m, hm, hp, he⟩ := ih h
      obtain ⟨m', hm', hp', he'⟩ := (attemptLoop_pairs (e' := r.2) (buf' := r.1) hd).2
      have hn : (k + 1 + 1) * p.numBits = p.numBits + (k + 1) * p.numBits := by
        rw [Nat.succ_mul, Nat.add_comm]
      refine ⟨m' + m, by rw [hn]; omega, ?_, ?_⟩
      · rw [hn]; exact hp'.add (he' ▸ hp)
      · rw [he, he', ← afterRaw_add]; congr 1; omega

/-- An attempt reads the instance's bits and size only: the tags play no part. -/
@[simp] theorem attempt_tags (p : Config.Params) (g : Config.Tags) (e : Engine) :
    attempt { p with tags := g } e = attempt p e := rfl

@[simp] theorem accepts_tags (p : Config.Params) (g : Config.Tags) (buf : List Byte) :
    accepts { p with tags := g } buf = accepts p buf := rfl

@[simp] theorem sampleLoop_tags (p : Config.Params) (g : Config.Tags) (fuel : Nat) (e : Engine) :
    sampleLoop { p with tags := g } fuel e = sampleLoop p fuel e := by
  induction fuel generalizing e with
  | zero => rfl
  | succ fuel ih => simp only [sampleLoop, attempt_tags, accepts_tags, ih]

/-- What the packing loop does: it draws the derived bits, and bit `k + i` of the buffer becomes 1 where the `i`-th of them is 1. -/
theorem attemptLoop_of_derivedBits {n k : Nat} {buf : List Byte} {e e' : Engine} {ds : List Bool}
    (hk : k + n ≤ 8 * buf.length) (hd : derivedBits n e = some (ds, e')) :
    ds.length = n ∧ ∃ buf', attemptLoop n k buf e = some (buf', e') ∧ buf'.length = buf.length ∧
      ∀ j, bufBit buf' j = (bufBit buf j || (decide (k ≤ j) && ds.getD (j - k) false)) := by
  induction n generalizing k buf e ds with
  | zero => cases hd; exact ⟨rfl, buf, rfl, rfl, by simp⟩
  | succ n ih =>
    rw [derivedBits] at hd
    cases hb : dbit e with
    | none => rw [hb] at hd; cases hd
    | some r =>
      rw [hb] at hd
      simp only [Option.bind_some, Option.map_eq_some_iff] at hd
      obtain ⟨q, hq, he⟩ := hd
      cases he
      have hl : (if r.1 then setBufBit buf k else buf).length = buf.length := by split <;> simp
      obtain ⟨h1, buf', h2, h3, h4⟩ :=
        ih (k := k + 1) (buf := if r.1 then setBufBit buf k else buf) (by rw [hl]; omega) hq
      refine ⟨by simp [h1], buf', by rw [attemptLoop, hb]; exact h2, by rw [h3, hl], fun j => ?_⟩
      rw [h4]
      have hs : bufBit (if r.1 then setBufBit buf k else buf) j =
          (bufBit buf j || (decide (j = k) && r.1)) := by
        cases r.1
        · simp
        · simp [bufBit_setBufBit _ (show k < 8 * buf.length by omega), Bool.or_comm]
      rw [hs]
      by_cases hjk : j = k
      · subst hjk; simp
      · by_cases hlt : k ≤ j
        · obtain ⟨i, rfl⟩ : ∃ i, j = k + 1 + i := ⟨j - k - 1, by omega⟩
          have e1 : k + 1 + i - k = i + 1 := by omega
          have e2 : k + 1 + i - (k + 1) = i := by omega
          have e3 : ¬ (k + 1 + i = k) := by omega
          have e4 : k ≤ k + 1 + i := by omega
          simp [e1, e2, e3, e4]
        · have : ¬ k + 1 ≤ j := by omega
          simp [hjk, hlt, this]

/-- The packing loop draws derived bits. -/
theorem derivedBits_of_attemptLoop {n k : Nat} {buf buf' : List Byte} {e e' : Engine}
    (h : attemptLoop n k buf e = some (buf', e')) : ∃ ds, derivedBits n e = some (ds, e') := by
  induction n generalizing k buf e with
  | zero => cases h; exact ⟨[], rfl⟩
  | succ n ih =>
    rw [attemptLoop] at h
    cases hb : dbit e with
    | none => rw [hb] at h; cases h
    | some r =>
      rw [hb] at h
      obtain ⟨ds, hd⟩ := ih h
      exact ⟨r.1 :: ds, by rw [derivedBits, hb]; simp [hd]⟩

/-! ## The rejection loop -/

/-- The rejection loop in the terms of its attempts: it ends with the first accepted one. -/
theorem sampleLoop_eq_some_iff (p : Config.Params) (fuel : Nat) (e : Engine) (buf : List Byte)
    (e' : Engine) :
    sampleLoop p fuel e = some (buf, e') ↔
      ∃ a, a < fuel ∧ (∀ i, i < a → Rejected p e i) ∧ attemptAt p a e = some (buf, e') ∧
        accepts p buf = true := by
  induction fuel generalizing e with
  | zero => simp [sampleLoop]
  | succ fuel ih =>
    rw [sampleLoop]
    cases ha : attempt p e with
    | none =>
      simp only [reduceCtorEq, false_iff]
      rintro ⟨a, _, hr, hs, _⟩
      cases a with
      | zero => rw [attemptAt, ha] at hs; cases hs
      | succ a =>
        obtain ⟨b, f, hb, _⟩ := hr 0 (by omega)
        rw [attemptAt, ha] at hb; cases hb
    | some r =>
      have hsucc : ∀ i, attemptAt p (i + 1) e = attemptAt p i r.2 := fun i => by
        rw [attemptAt, ha]; rfl
      have hrej : ∀ i, Rejected p e (i + 1) ↔ Rejected p r.2 i := fun i => by
        simp only [Rejected, hsucc]
      by_cases hacc : accepts p r.1 = true
      · simp only [hacc, if_true]
        constructor
        · intro h
          have h := Option.some.inj h
          refine ⟨0, by omega, fun i hi => absurd hi (by omega), ?_, ?_⟩
          · rw [attemptAt, ha, ← h]
          · have h1 : r.1 = buf := congrArg Prod.fst h
            rw [← h1]; exact hacc
        · rintro ⟨a, _, hr, hs, _⟩
          cases a with
          | zero => rw [attemptAt, ha] at hs; exact hs
          | succ a =>
            obtain ⟨b, f, hb, hbf⟩ := hr 0 (by omega)
            rw [attemptAt, ha] at hb
            have h1 : r.1 = b := congrArg Prod.fst (Option.some.inj hb)
            rw [← h1, hacc] at hbf; cases hbf
      · simp only [hacc, if_false, Bool.false_eq_true]
        rw [ih]
        constructor
        · rintro ⟨a, hlt, hr, hs, hb⟩
          refine ⟨a + 1, by omega, ?_, by rw [hsucc]; exact hs, hb⟩
          intro i hi
          cases i with
          | zero => exact ⟨r.1, r.2, ha, by simpa using hacc⟩
          | succ i => exact (hrej i).mpr (hr i (by omega))
        · rintro ⟨a, hlt, hr, hs, hb⟩
          cases a with
          | zero =>
            rw [attemptAt, ha] at hs
            have h1 : r.1 = buf := congrArg Prod.fst (Option.some.inj hs)
            rw [h1] at hacc; exact absurd hb hacc
          | succ a =>
            exact ⟨a, by omega, fun i hi => (hrej i).mp (hr _ (by omega)), by rw [← hsucc]; exact hs, hb⟩

/-- The engine values, counted. -/
def engineIndex (e : Engine) : Fin (81 * 2 ^ 80) := finProdFinEquiv (e.cur, e.reg.toFin)

theorem engineIndex_injective : Function.Injective engineIndex := by
  intro a b h
  have h := finProdFinEquiv.injective h
  have h1 : a.cur = b.cur := congrArg Prod.fst h
  have h2 : a.reg.toFin = b.reg.toFin := congrArg Prod.snd h
  cases a; cases b
  simp only [Engine.mk.injEq]
  exact ⟨BitVec.eq_of_toFin_eq h2, h1⟩

/-- The engine an attempt leaves. -/
def nextEngine (p : Config.Params) (e : Engine) : Engine := ((attempt p e).getD ([], e)).2

theorem attempt_iterate_of_attemptAt {p : Config.Params} {k : Nat} {e : Engine}
    {r : List Byte × Engine} (h : attemptAt p k e = some r) :
    attempt p ((nextEngine p)^[k] e) = some r := by
  induction k generalizing e with
  | zero => exact h
  | succ k ih =>
    cases ha : attempt p e with
    | none => rw [attemptAt, ha] at h; cases h
    | some q =>
      have hn : nextEngine p e = q.2 := by rw [nextEngine, ha]; rfl
      rw [attemptAt, ha] at h
      rw [Function.iterate_succ_apply, hn]
      exact ih h

/-- Every state of an orbit in a finite type is met within as many steps as the type has elements. -/
theorem orbit_bound {N : Nat} {α : Type} {index : α → Fin N} (hinj : Function.Injective index)
    (f : α → α) (x : α) (k : Nat) : ∃ j, j < N ∧ f^[k] x = f^[j] x := by
  induction k using Nat.strong_induction_on with
  | _ k ih =>
    by_cases hk : k < N
    · exact ⟨k, hk, rfl⟩
    · obtain ⟨a, b, hab, heq⟩ := Fintype.exists_ne_map_eq_of_card_lt
        (fun i : Fin (N + 1) => index (f^[i.val] x)) (by simp)
      wlog hlt : a < b generalizing a b
      · exact this b a hab.symm heq.symm (lt_of_le_of_ne (not_lt.mp hlt) hab.symm)
      have heq := hinj heq
      have hlt' : a.val < b.val := hlt
      have hb : b.val ≤ k := by have := b.isLt; omega
      obtain ⟨j, hj, he⟩ := ih (k - b.val + a.val) (by omega)
      refine ⟨j, hj, ?_⟩
      rw [← he, Function.iterate_add_apply, heq, ← Function.iterate_add_apply, Nat.sub_add_cancel hb]

/-- The first accepted attempt, if there is one, comes within as many attempts as there are engine states. -/
theorem firstAccepted_lt {p : Config.Params} {e : Engine} {a : Nat} {buf : List Byte} {e' : Engine}
    (hr : ∀ i, i < a → Rejected p e i) (hs : attemptAt p a e = some (buf, e'))
    (hb : accepts p buf = true) : a < engineStates := by
  by_contra hlt
  obtain ⟨j, hj, he⟩ := orbit_bound engineIndex_injective (nextEngine p) e a
  have hja : j < a := lt_of_lt_of_le hj (not_lt.mp hlt)
  obtain ⟨b, f, hbf, hrej⟩ := hr j hja
  have hs := attempt_iterate_of_attemptAt hs
  rw [he, attempt_iterate_of_attemptAt hbf] at hs
  have : b = buf := congrArg Prod.fst (Option.some.inj hs)
  rw [this, hb] at hrej; cases hrej

/-- `sample` answers a buffer exactly where the loop without a cap ends with it. -/
theorem sample_eq_some_iff (p : Config.Params) (e : Engine) (buf : List Byte) (e' : Engine) :
    sample p e = some (buf, e') ↔
      ∃ a, (∀ i, i < a → Rejected p e i) ∧ attemptAt p a e = some (buf, e') ∧
        accepts p buf = true := by
  rw [sample, sampleLoop_eq_some_iff]
  constructor
  · rintro ⟨a, _, h⟩; exact ⟨a, h⟩
  · rintro ⟨a, hr, hs, hb⟩; exact ⟨a, firstAccepted_lt hr hs hb, hr, hs, hb⟩

/-- `sample` answers none exactly where no attempt is ever accepted. -/
theorem sample_eq_none_iff (p : Config.Params) {e : Engine} (hz : e.reg ≠ 0#80) :
    sample p e = none ↔ ∀ k, Rejected p e k := by
  constructor
  · intro h k
    induction k using Nat.strong_induction_on with
    | _ k ih =>
      obtain ⟨r, hr, _⟩ := attemptAt_isSome p k hz
      refine ⟨r.1, r.2, hr, ?_⟩
      by_contra hacc
      have hacc : accepts p r.1 = true := by simpa using hacc
      rw [(sample_eq_some_iff p e r.1 r.2).mpr ⟨k, ih, hr, hacc⟩] at h
      cases h
  · intro h
    cases hs : sample p e with
    | none => rfl
    | some r =>
      obtain ⟨a, _, ha, hb⟩ := (sample_eq_some_iff p e r.1 r.2).mp hs
      obtain ⟨b, f, hbf, hrej⟩ := h a
      rw [ha] at hbf
      have h1 : r.1 = b := congrArg Prod.fst (Option.some.inj hbf)
      rw [← h1, hb] at hrej; cases hrej

end Sys2Proof.Laws
end

