-- ==== Sys2Proof/Laws/SeedEncoder.lean ====
section
/-! SUPPORT. The Seed Encoder: the warm-up as an iteration of the refill, and the engine INIT leaves. -/

namespace Sys2Proof.Laws

open Sys2Proof.Machine Sys2Proof.Safety

/-- The warm-up refills the Register and leaves the Cursor at 80 (spec/40_seed_encoder.md R102, R103). -/
theorem discardRefills_eq (k : Nat) (e : Engine) (h : e.cur = 80) :
    discardRefills k e h = { reg := refillReg^[k] e.reg, cur := 80 } := by
  induction k generalizing e with
  | zero => cases e; cases h; rfl
  | succ k ih => rw [discardRefills, ih]; rfl

/-- The engine after construction (spec/10_state.md R35). -/
theorem construct_eng (fk : BitVec 2) (sb : BitVec 4) (n t : BitVec 12) (rf rp : BitVec 10) (s : State) :
    (construct fk sb n t rf rp s).eng =
      { reg := refillReg^[20] (seedRegister fk sb n t rf rp), cur := 80 } :=
  discardRefills_eq 20 (encodeSeed fk sb n t rf rp s).eng (encodeSeed_cur fk sb n t rf rp s)

/-- `k` refills move the Register `8 * k` places along its stream (spec/41_lfsr_engine.md R125). -/
theorem streamBit_refill_iterate (r : Register) (k m : Nat) :
    streamBit (refillReg^[k] r) m = streamBit r (8 * k + m) := by
  induction k generalizing r with
  | zero => simp
  | succ k ih => rw [Function.iterate_succ_apply, ih, streamBit_refillReg]; congr 1; omega

end Sys2Proof.Laws
end

