-- ==== Sys2Proof/Laws/State.lean ====
section
/-! SUPPORT. One lemma per field per update of the state, for the simp set, and one specification lemma per operation on the state. -/

namespace Sys2Proof.Laws

open Sys2Proof.Machine

section Respond
variable (r : Response) (s : State)
@[simp] theorem respond_eng : (respond r s).eng = s.eng := rfl
@[simp] theorem respond_phase : (respond r s).phase = s.phase := rfl
@[simp] theorem respond_flt : (respond r s).flt = s.flt := rfl
@[simp] theorem respond_port : (respond r s).port = .responding r := rfl
@[simp] theorem respond_inst : (respond r s).inst = s.inst := rfl
@[simp] theorem respond_inputs : (respond r s).inputs = s.inputs := rfl
@[simp] theorem respond_freeCount : (respond r s).freeCount = s.freeCount := rfl
end Respond

section RaiseRefused
variable (c : Status) (s : State)
@[simp] theorem raiseRefused_eng : (raiseRefused c s).eng = s.eng := rfl
@[simp] theorem raiseRefused_phase : (raiseRefused c s).phase = s.phase := rfl
@[simp] theorem raiseRefused_flt : (raiseRefused c s).flt = true := rfl
@[simp] theorem raiseRefused_port : (raiseRefused c s).port = .responding (plainResponse c) := rfl
@[simp] theorem raiseRefused_inst : (raiseRefused c s).inst = s.inst := rfl
@[simp] theorem raiseRefused_inputs : (raiseRefused c s).inputs = s.inputs := rfl
@[simp] theorem raiseRefused_freeCount : (raiseRefused c s).freeCount = s.freeCount := rfl
end RaiseRefused

section ResetEvent
variable (s : State)
@[simp] theorem resetEvent_phase : (resetEvent s).phase = .unconstructed := rfl
@[simp] theorem resetEvent_flt : (resetEvent s).flt = false := rfl
@[simp] theorem resetEvent_port : (resetEvent s).port = .idle := rfl
@[simp] theorem resetEvent_inst : (resetEvent s).inst = s.inst := rfl
@[simp] theorem resetEvent_inputs : (resetEvent s).inputs = s.inputs := rfl
@[simp] theorem resetEvent_freeCount : (resetEvent s).freeCount = s.freeCount + 1 := rfl
end ResetEvent

section Construct
variable (fk : BitVec 2) (sb : BitVec 4) (n t : BitVec 12) (rf rp : BitVec 10) (s : State)
@[simp] theorem construct_phase : (construct fk sb n t rf rp s).phase = .ready := rfl
@[simp] theorem construct_flt : (construct fk sb n t rf rp s).flt = s.flt := rfl
@[simp] theorem construct_port : (construct fk sb n t rf rp s).port = s.port := rfl
@[simp] theorem construct_inst : (construct fk sb n t rf rp s).inst = s.inst := rfl
@[simp] theorem construct_inputs : (construct fk sb n t rf rp s).inputs = s.inputs := rfl
@[simp] theorem construct_freeCount : (construct fk sb n t rf rp s).freeCount = s.freeCount := rfl
end Construct

section Handshake
variable (w : CommandWord) (s : State)
@[simp] theorem accept_eng : (accept w s).eng = s.eng := rfl
@[simp] theorem accept_phase : (accept w s).phase = s.phase := rfl
@[simp] theorem accept_flt : (accept w s).flt = s.flt := rfl
@[simp] theorem accept_port : (accept w s).port = .running w := rfl
@[simp] theorem accept_inst : (accept w s).inst = s.inst := rfl
@[simp] theorem accept_inputs : (accept w s).inputs = s.inputs := rfl
@[simp] theorem accept_freeCount : (accept w s).freeCount = s.freeCount := rfl
@[simp] theorem takeResponse_eng : (takeResponse s).eng = s.eng := rfl
@[simp] theorem takeResponse_phase : (takeResponse s).phase = s.phase := rfl
@[simp] theorem takeResponse_flt : (takeResponse s).flt = s.flt := rfl
@[simp] theorem takeResponse_port : (takeResponse s).port = .idle := rfl
@[simp] theorem takeResponse_inst : (takeResponse s).inst = s.inst := rfl
@[simp] theorem takeResponse_inputs : (takeResponse s).inputs = s.inputs := rfl
@[simp] theorem takeResponse_freeCount : (takeResponse s).freeCount = s.freeCount := rfl
@[simp] theorem consumeEdge_eng : (consumeEdge s).eng = s.eng := rfl
@[simp] theorem consumeEdge_phase : (consumeEdge s).phase = s.phase := rfl
@[simp] theorem consumeEdge_flt : (consumeEdge s).flt = s.flt := rfl
@[simp] theorem consumeEdge_port : (consumeEdge s).port = s.port := rfl
@[simp] theorem consumeEdge_inst : (consumeEdge s).inst = s.inst := rfl
@[simp] theorem consumeEdge_inputs : (consumeEdge s).inputs = s.inputs.tail := rfl
@[simp] theorem consumeEdge_freeCount : (consumeEdge s).freeCount = s.freeCount := rfl
end Handshake

section WithTags
open Safety
variable (g : Config.Tags) (s : State)
@[simp] theorem withTags_eng : (withTags g s).eng = s.eng := rfl
@[simp] theorem withTags_phase : (withTags g s).phase = s.phase := rfl
@[simp] theorem withTags_flt : (withTags g s).flt = s.flt := rfl
@[simp] theorem withTags_port : (withTags g s).port = s.port := rfl
@[simp] theorem withTags_inst : (withTags g s).inst = { s.inst with tags := g } := rfl
@[simp] theorem withTags_inputs : (withTags g s).inputs = s.inputs := rfl
@[simp] theorem withTags_freeCount : (withTags g s).freeCount = s.freeCount := rfl
end WithTags

/-! ## What an instruction can do -/

/-- Everything `INIT` can do. -/
theorem execInit_cases {fk sb n t rf rp} {s : State} {o} (h : execInit fk sb n t rf rp s = o) :
    (s.phase ≠ .unconstructed ∧ o = .next (raiseRefused .alreadyInit s)) ∨
      (s.phase = .unconstructed ∧
        o = .next (respond (plainResponse .ok) (construct fk sb n t rf rp s))) := by
  unfold execInit at h
  split at h
  · exact .inl ⟨‹_›, h.symm⟩
  · exact .inr ⟨not_not.mp ‹_›, h.symm⟩

/-- Everything `NEXTBIT` can do. -/
theorem execNextbit_cases {s : State} {o} (h : execNextbit s = o) :
    (s.phase ≠ .ready ∧ o = .next (raiseRefused .notReady s)) ∨
      (s.phase = .ready ∧ ∃ b e, dbit s.eng = some (b, e) ∧
        o = .next (respond (bitResponse b) { s with eng := e })) ∨
      (s.phase = .ready ∧ dbit s.eng = none ∧ o = .next s) := by
  unfold execNextbit at h
  split at h
  · exact .inl ⟨‹_›, h.symm⟩
  · have hp : s.phase = .ready := not_not.mp ‹_›
    split at h
    · exact .inr (.inl ⟨hp, _, _, ‹_›, h.symm⟩)
    · exact .inr (.inr ⟨hp, ‹_›, h.symm⟩)

/-- Everything `NEXTFE` can do. -/
theorem execNextfe_cases {s : State} {o} (h : execNextfe s = o) :
    (s.phase ≠ .ready ∧ o = .next (raiseRefused .notReady s)) ∨
      (s.phase = .ready ∧ ∃ buf e, sample s.inst s.eng = some (buf, e) ∧
        o = .next (respond (dataResponse buf) { s with eng := e })) ∨
      (s.phase = .ready ∧ sample s.inst s.eng = none ∧ o = .next s) := by
  unfold execNextfe at h
  split at h
  · exact .inl ⟨‹_›, h.symm⟩
  · have hp : s.phase = .ready := not_not.mp ‹_›
    split at h
    · exact .inr (.inl ⟨hp, _, _, ‹_›, h.symm⟩)
    · exact .inr (.inr ⟨hp, ‹_›, h.symm⟩)

/-- Everything an edge can do. -/
theorem edge_cases {p : Edge} {s : State} {o} (h : edge p s = o) :
    (p.rst = true ∧ o = .next (resetEvent s)) ∨
      (p.rst = false ∧ s.port = .idle ∧ p.cmdValid = true ∧ o = .next (accept p.cmdWord s)) ∨
      (p.rst = false ∧ s.port = .idle ∧ p.cmdValid = false ∧ o = .next s) ∨
      (p.rst = false ∧ (∃ w, s.port = .running w) ∧ p.stall = true ∧ o = .next s) ∨
      (p.rst = false ∧ p.stall = false ∧ ∃ w, s.port = .running w ∧ o = command w s) ∨
      (p.rst = false ∧ (∃ r, s.port = .responding r) ∧ p.rspReady = true ∧
        o = .next (takeResponse s)) ∨
      (p.rst = false ∧ (∃ r, s.port = .responding r) ∧ p.rspReady = false ∧ o = .next s) := by
  subst h
  unfold edge
  cases hr : p.rst <;> simp only [Bool.false_eq_true, if_true, if_false, reduceCtorEq, true_and,
    false_and, false_or, or_false]
  cases hp : s.port <;>
    simp only [reduceCtorEq, false_and, exists_false, or_false, false_or, true_and,
      Port.running.injEq, Port.responding.injEq, exists_eq', exists_eq_left']
  · cases p.cmdValid <;> simp
  · cases p.stall <;> simp
  · cases p.rspReady <;> simp

/-! ## Runs -/

/-- A run takes its first step and goes on from there. -/
theorem run_succ_of_next {k : Nat} {s t : State} (h : step s = .next t) :
    Safety.run (k + 1) s = Safety.run k t := by
  rw [Safety.run, h]

end Sys2Proof.Laws
end

