-- ==== Sys2Proof/Tests/Slice0.lean ====
section
/-! SUPPORT. The model's own tests: expected results are the vectors of spec/95_test_vectors.md, whose numbers are named; then, for each obligation with hypotheses, a concrete case that meets them. -/

namespace Sys2Proof.Tests

open Sys2Proof.Machine Sys2Proof.Safety

/-! ## Helpers -/

/-- Parameters with the default tags. -/
abbrev params (numBits reprBytes : Nat) (parse : Config.Parse) : Config.Params :=
  { numBits := numBits, reprBytes := reprBytes, parse := parse }
/-- The parameters of vectors V7 and P2. -/
abbrev toy (m : Nat) : Config.Params := params 8 1 (.belowModulus m)
/-- The `Parse` that rejects everything (spec/43_field_sampler.md R162). -/
abbrev rejectAll : Config.Params := params 8 1 (.supplied [])

/-- A READY block. -/
abbrev readyAt (p : Config.Params) (r : Register) (c : Fin 81) (port : Port := .idle)
    (inputs : List Edge := []) : State :=
  { eng := { reg := r, cur := c }, phase := .ready, flt := false, port := port, inst := p,
    inputs := inputs, freeCount := 1 }

/-- A block that is not constructed. -/
abbrev fresh (p : Config.Params) (port : Port := .idle) (inputs : List Edge := []) : State :=
  { eng := { reg := 0#80, cur := 0 }, phase := .unconstructed, flt := false, port := port, inst := p,
    inputs := inputs, freeCount := 1 }

/-- A response of an executed query. -/
abbrev okBit (b : Bool) : Port := .responding { status := .ok, bit := some b, data := none }
abbrev okData (buf : List Byte) : Port := .responding { status := .ok, bit := none, data := some buf }
abbrev refusal (c : Status) : Port := .responding { status := c, bit := none, data := none }

/-- The next state of an outcome, comparable. -/
def nextOf (o : Host.Outcome State Fault Refusal) : Option State :=
  match o with
  | .next t => some t
  | .fault _ => none
  | .refused _ => none

theorem eq_next {o : Host.Outcome State Fault Refusal} {t : State} (h : nextOf o = some t) : o = .next t := by
  cases o with
  | next u => exact congrArg _ (Option.some.inj h)
  | fault r => exact nomatch r
  | refused r => cases h

/-- The scenario seed S1 of V1. -/
abbrev s1 : Instr := .init 1 0 255 3 8 56
/-- The Register of S1 after INIT (V1). -/
abbrev r1 : Register := 0x6FDCF8B12C67B0B33F5E#80
/-- The engine of V12 before its third NEXTFE, whose first attempt is rejected. -/
abbrev e12 : Engine := { reg := 0xAE386829CE66262ADE6B#80, cur := 76 }
/-- The engine of V12 after the rejected attempt. -/
abbrev e12' : Engine := { reg := 0x6829CE66262ADE6BA89F#80, cur := 80 }

/-! ## WellFormed: each check refuses an ill-formed term -/

theorem test_fk_too_wide : (SeedNats.mk 4 0 0 0 0 0).fits = false := by decide
theorem test_sb_too_wide : (SeedNats.mk 0 16 0 0 0 0).fits = false := by decide
theorem test_n_too_wide : (SeedNats.mk 0 0 4096 0 0 0).fits = false := by decide
theorem test_t_too_wide : (SeedNats.mk 0 0 0 4096 0 0).fits = false := by decide
theorem test_rf_too_wide : (SeedNats.mk 0 0 0 0 1024 0).fits = false := by decide
theorem test_rp_too_wide : (SeedNats.mk 0 0 0 0 0 1024).fits = false := by decide
theorem test_widest_fits : (SeedNats.mk 3 15 4095 4095 1023 1023).fits = true := by decide
theorem test_reserved_tags_do_not_conform :
    (SeedNats.mk 2 0 8 0 0 0).conforming (toy 251) = false ∧
      (SeedNats.mk 0 2 8 0 0 0).conforming (toy 251) = false := by decide
theorem test_other_tags_conform :
    (SeedNats.mk 2 5 8 0 0 0).conforming { toy 251 with tags := { fkPrime := 2, sbInv := 5 } } = true ∧
      (SeedNats.mk 1 0 8 0 0 0).conforming { toy 251 with tags := { fkPrime := 2, sbInv := 5 } } = false := by
  decide
theorem test_other_bit_length_does_not_conform :
    (SeedNats.mk 1 0 9 3 8 56).conforming (toy 251) = false ∧
      (SeedNats.mk 1 0 8 3 8 56).conforming (toy 251) = true := by decide
theorem test_no_bytes : (params 1 0 (.belowModulus 2)).wf = false := by decide
theorem test_no_bits : (params 0 1 (.belowModulus 2)).wf = false := by decide
theorem test_more_bits_than_buffer : (params 9 1 (.belowModulus 2)).wf = false := by decide
theorem test_modulus_too_small : (params 8 1 (.belowModulus 1)).wf = false := by decide
theorem test_modulus_too_large :
    (params 8 1 (.belowModulus 257)).wf = false ∧ (params 8 1 (.belowModulus 256)).wf = true := by
  decide
theorem test_instr_wellFormed : Instr.wellFormed s1 = true ∧ Instr.wellFormed .nextbit = true ∧
    Instr.wellFormed .nextfe = true := by decide

/-! ## Decode and encode (V1, V14; the bits of S1's word are written out from R70 to R73) -/

theorem test_decode_init : decode
    (0b01#2 ++ 0b01#2 ++ 0b0000#4 ++ 0b000011111111#12 ++ 0b000000000011#12 ++ 0b0000001000#10 ++ 0b0000111000#10) =
      .command s1 := by decide
theorem test_decode_nextbit : decode (0b10#2 ++ 0#50) = .command .nextbit := by decide
theorem test_decode_nextfe : decode (0b11#2 ++ 0#50) = .command .nextfe := by decide
theorem test_encode : encode s1 = 0x500FF00302038#52 ∧ encode .nextbit = 0x8000000000000#52 ∧
    encode .nextfe = 0xC000000000000#52 := by decide
theorem test_decode_illegal : decode 0x0000000000001#52 = .illegal .reservedOp ∧
    decode 0x8000000000001#52 = .illegal .payloadNotZero ∧
    decode 0xFFFFFFFFFFFFF#52 = .illegal .payloadNotZero := by decide
theorem test_table_word : decodeTableWord 52 0x500FF00302038 = some s1 ∧
    decodeTableWord 56 0x8000000000000 = some .nextbit ∧ decodeTableWord 56 0x80000000000000 = none := by decide
theorem test_seed_naturals : (SeedNats.mk 1 0 255 3 8 56).instr? = some s1 ∧
    (SeedNats.mk 4 0 255 3 8 56).instr? = none := by decide

/-! ## The notation of programs (spec/30_encoding.md R85, R86) -/

theorem test_line_new : (Line.new (SeedSpelling.mk (.number 1) (.number 0) 255 3 8 56)).events {} =
    some [.reset, .command 0x500FF00302038#52] := by decide
/-- P5, second line: fk=prime sb=pow. -/
theorem test_line_init_by_name :
    (Line.init (SeedSpelling.mk (.variant .primeOrder) (.variant .powerMap) 255 3 8 56)).events {} =
      some [.command 0x500FF00302038#52] := by decide
theorem test_line_nextbits : (Line.nextbits 2).events {} =
    some [.command 0x8000000000000#52, .command 0x8000000000000#52] := by decide
theorem test_line_word : (Line.word (2 ^ 52)).events {} = none ∧
    (Line.word 1).events {} = some [.command 1#52] := by decide

/-! ## Micro-operations -/

/-- V2, rows R[0], R[13], R[69] and R[64..79]. -/
theorem test_refill : refillReg 0x80000000000000000000#80 = 0x00000000000000000080#80 ∧
    refillReg 0x00040000000000000000#80 = 0x04000000000000000080#80 ∧
    refillReg 0x00000000000000000400#80 = 0x00000000000000040001#80 ∧
    refillReg 0x0000000000000000FFFF#80 = 0x00000000000000FFFF3F#80 := by decide +kernel

/-- V3, refills 1, 10 and 20. -/
theorem test_warmup : refillReg^[1] 0x403FC00C080E3FFFFFFF#80 = 0x3FC00C080E3FFFFFFFBD#80 ∧
    refillReg^[10] 0x403FC00C080E3FFFFFFF#80 = 0xBDB5A97D48134B5A1F83#80 ∧
    refillReg^[20] 0x403FC00C080E3FFFFFFF#80 = r1 := by decide +kernel

/-- V4: the first sixteen raw bits of S1, and the state after 64. -/
theorem test_raw : (List.range 16).map (rawAt { reg := r1, cur := 80 }) =
    [true, true, true, true, true, false, true, true, true, true, true, true, true, true, true, false] ∧
    afterRaw 64 { reg := r1, cur := 80 } = { reg := 0x3F5EFBFE86222A2C3C1E#80, cur := 80 } := by
  decide +kernel

/-- V12: attempt 3 packs `C2` and is rejected by modulus 131; attempt 4 packs `77`. -/
theorem test_attempt : attempt (toy 131) e12 = some ([0xC2#8], e12') ∧
    attempt (toy 131) e12' = some ([0x77#8], { reg := 0x262ADE6BA89FF13B3D97#80, cur := 74 }) := by
  decide +kernel

/-- R56: the value of a buffer, `BUF[0]` least significant (V11 row 1). -/
theorem test_value : bufValue [0xD2#8, 0x02#8] = 722 := by decide

/-- A supplied `Parse`: its spans at their ends, and the one that rejects everything. -/
theorem test_supplied_parse :
    ([0, 2, 3, 4, 5, 6].map fun v => accepts (params 8 1 (.supplied [⟨0, 3⟩, ⟨5, 6⟩])) [v]) =
      [true, true, false, false, true, false] ∧ accepts rejectAll [0x00#8] = false := by decide

/-! ## The three commands -/

/-- V1, seed S1. -/
theorem test_init : nextOf (exec s1 (fresh (toy 251))) =
    some (readyAt (toy 251) r1 80 (refusal .ok)) := by decide +kernel
/-- P3, line 4. -/
theorem test_init_refused : nextOf (exec s1 (readyAt (toy 251) r1 80)) =
    some { readyAt (toy 251) r1 80 (refusal .alreadyInit) with flt := true } := by decide +kernel
/-- V5: the tenth derived bit of S1 costs six raw bits (state before it: ninth, after sixteen and two more raw bits). -/
theorem test_nextbit : nextOf (exec .nextbit (readyAt (toy 251) 0xB12C67B0B33F5EFBFE86#80 74)) =
    some (readyAt (toy 251) 0xB12C67B0B33F5EFBFE86#80 80 (okBit false)) := by decide +kernel
/-- P3, line 2. -/
theorem test_nextbit_refused : nextOf (exec .nextbit (fresh (toy 251))) =
    some { fresh (toy 251) (refusal .notReady) with flt := true } := by decide +kernel
/-- V12, the third NEXTFE: one rejection, nothing of `C2` in the answer. -/
theorem test_nextfe : nextOf (exec .nextfe (readyAt (toy 131) 0xAE386829CE66262ADE6B#80 76)) =
    some (readyAt (toy 131) 0x262ADE6BA89FF13B3D97#80 74 (okData [0x77#8])) := by decide +kernel
/-- V11, row 1, from the Register of S7 after INIT (V1). -/
theorem test_nextfe_two_bytes :
    nextOf (exec .nextfe (readyAt (params 10 2 (.belowModulus 1009)) 0xDA7C54B35F2F8DA4E96D#80 80)) =
      some (readyAt (params 10 2 (.belowModulus 1009)) 0x5F2F8DA4E96D95DAEFB0#80 76
        (okData [0xD2#8, 0x02#8])) := by decide +kernel

/-- The first word after reset, placed as the host places it (V1, V14). -/
theorem test_fetch_word : (nextOf (step (State.reset.withFetchWord 52 0x500FF00302038))).map State.eng =
    some { reg := r1, cur := 80 } ∧
    (nextOf (step (State.reset.withFetchWord 52 0xC000000000000))).map State.port = some (refusal .notReady) := by
  decide +kernel

/-! ## Witnesses: each obligation's hypotheses are met -/

theorem witness_DecodeOfEncode : Instr.wellFormed (.init 3 15 4095 4095 1023 1023) = true := by decide

theorem witness_EncodeOfDecode : decode 0x7FFFFFFFFFFFF#52 = .command (.init 3 15 4095 4095 1023 1023) := by decide

/-- Each clause at the bounds of its range. -/
theorem witness_DecodeByWordValue :
    decode (BitVec.ofNat 52 (2 ^ 50 - 1)) = .illegal .reservedOp ∧
    decode (BitVec.ofNat 52 (2 ^ 50)) = .command (.init 0 0 0 0 0 0) ∧
    decode (BitVec.ofNat 52 (2 ^ 51 - 1)) = .command (.init 3 15 4095 4095 1023 1023) ∧
    decode (BitVec.ofNat 52 (2 ^ 51)) = .command .nextbit ∧
    decode (BitVec.ofNat 52 (2 ^ 51 + 1)) = .illegal .payloadNotZero ∧
    decode (BitVec.ofNat 52 (3 * 2 ^ 50 - 1)) = .illegal .payloadNotZero ∧
    decode (BitVec.ofNat 52 (3 * 2 ^ 50)) = .command .nextfe ∧
    decode (BitVec.ofNat 52 (2 ^ 52 - 1)) = .illegal .payloadNotZero := by decide

theorem witness_SeedFromNaturals : (SeedNats.mk 3 15 4095 4095 1023 1023).instr? =
    some (.init 3 15 4095 4095 1023 1023) ∧ (SeedNats.mk 3 15 4095 4095 1023 1024).instr? = none := by decide

/-- Both clauses at the ends of their ranges. -/
theorem witness_SeedFieldsInRegister :
    bit (seedRegister 2 0 0 0 0 0) 0 = true ∧ bit (seedRegister 0 0 0 0 0 1) 49 = true ∧
    bit (seedRegister 0 0 0 0 0 0) 49 = false ∧ bit (seedRegister 0 0 0 0 0 0) 50 = true ∧
    bit (seedRegister 0 0 0 0 0 0) 79 = true := by decide

theorem witness_RegisterBytes : registerByte r1 0 = 0x6F#8 ∧ registerByte r1 9 = 0x5E#8 ∧
    bit r1 1 = (registerByte r1 0).getMsbD 1 ∧ bit r1 79 = (registerByte r1 9).getMsbD 7 := by decide

theorem witness_RefillAsWordArithmetic : ({ reg := r1, cur := 80 } : Engine).cur = 80 := by decide

/-- Two Registers that differ outside the taps of lane 0, and lane 7 at the highest index read. -/
theorem witness_RefillLanes : (0#80 : Register) ≠ 0x00000000000000000200#80 ∧
    ∀ o ∈ [0, 13, 23, 38, 51, 62], 7 + o ≤ 69 ∧ bit 0#80 (7 + o) = bit 0x00000000000000000200#80 (7 + o) := by
  decide

/-- A constructed state that a run meets, and a Register that is not zero. -/
theorem witness_RefillIsBijective : (∃ s, Reachable s ∧ s.phase = .ready) ∧ (1#80 : Register) ≠ 0#80 := by
  refine ⟨?_, by decide⟩
  have h : ∀ o : Host.Outcome State Fault Refusal,
      (nextOf o).map State.phase = some .ready → ∃ s, o = .next s ∧ s.phase = .ready := by
    intro o ho
    cases o with
    | next u => exact ⟨u, rfl, Option.some.inj ho⟩
    | fault r => exact nomatch r
    | refused r => cases ho
  obtain ⟨s, hs, hp⟩ := h
    (run 2 { State.reset with
      inst := toy 251, inputs := [{ cmdValid := true, cmdWord := encode s1 }] }) (by decide +kernel)
  exact ⟨s, ⟨toy 251, _, 2, by decide, hs⟩, hp⟩

theorem witness_RawbitReadsAtTheCursor : ({ reg := r1, cur := 80 } : Engine).cur = 80 ∧
    ({ reg := r1, cur := 79 } : Engine).cur.val = 79 ∧ ({ reg := r1, cur := 0 } : Engine).cur.val = 0 := by
  decide

/-- V4's first eight raw bits, the first of the next eight, and the rule's bounds. -/
theorem witness_EightReadsPerRefill :
    (List.range 9).map (rawAt { reg := r1, cur := 80 }) =
      [true, true, true, true, true, false, true, true, true] := by decide +kernel

theorem witness_StreamAfterConstruction :
    IsStreamOf (seedRegister 1 0 255 3 8 56) (Laws.streamBit (seedRegister 1 0 255 3 8 56)) ∧
    ∃ st', (fresh (toy 251)).phase = .unconstructed ∧ exec s1 (fresh (toy 251)) = .next st' :=
  ⟨Laws.streamBit_isStreamOf _, _, rfl, eq_next test_init⟩

theorem witness_InitBuildsTheWarmedRegister : (fresh (toy 251)).phase = .unconstructed := by decide

/-- S1 and S2 of V1 (different seed words), and S1 twice. -/
theorem witness_DistinctSeedsGiveDistinctStreams :
    s1.op = 0b01#2 ∧ Instr.op (.init 1 0 255 4 8 56) = 0b01#2 ∧
    s1.payload ≠ Instr.payload (.init 1 0 255 4 8 56) ∧ (fresh (toy 251)).phase = .unconstructed ∧
    nextOf (exec s1 (fresh (toy 251))) = some (readyAt (toy 251) r1 80 (refusal .ok)) ∧
    nextOf (exec (.init 1 0 255 4 8 56) (fresh (toy 251))) =
      some (readyAt (toy 251) 0x739B2A54187F1D068335#80 80 (refusal .ok)) := by decide +kernel

theorem witness_DbitIsTheUnboundedLoop :
    dbit { reg := r1, cur := 80 } = some (true, { reg := 0xDCF8B12C67B0B33F5EFB#80, cur := 74 }) := by
  decide +kernel

theorem witness_NextbitCompletes : (readyAt (toy 251) r1 80).phase = .ready ∧
    (readyAt (toy 251) r1 80).eng.reg ≠ 0#80 := by decide

/-- The hypotheses of QueriesConsumeWholePairs, both clauses; V12's NEXTFE with one rejection for the second: 46 raw bits, sixteen derived bits. -/
theorem witness_QueriesConsumeWholePairs :
    exec .nextbit (readyAt (toy 251) r1 80 (.running 0x8000000000000#52)) =
      .next (readyAt (toy 251) 0xDCF8B12C67B0B33F5EFB#80 74 (okBit true)) ∧
    exec .nextfe (readyAt (toy 131) e12.reg e12.cur (.running 0xC000000000000#52)) =
      .next (readyAt (toy 131) 0x262ADE6BA89FF13B3D97#80 74 (okData [0x77#8])) ∧
    afterRaw 46 e12 = { reg := 0x262ADE6BA89FF13B3D97#80, cur := 74 } ∧
    (List.range 23).countP (controlBit e12) = 16 ∧ controlBit e12 22 = true :=
  ⟨eq_next (by decide +kernel), eq_next (by decide +kernel), by decide +kernel, by decide +kernel,
    by decide +kernel⟩

theorem witness_AttemptReturnsWithinItsBound : e12.reg ≠ 0#80 := by decide

/-- V7 row 1: the eight derived bits and their packing. -/
theorem witness_AttemptPacksDerivedBits : (toy 251).wf = true ∧
    derivedBits 8 { reg := r1, cur := 80 } = some
      ([true, true, false, true, true, true, true, false], { reg := 0xF8B12C67B0B33F5EFBFE#80, cur := 80 }) ∧
    pack 1 [true, true, false, true, true, true, true, false] = [0x7B#8] := by decide +kernel

/-- The second clause's hypotheses, with bits above `NUM_BITS` in the buffer (V11). -/
theorem witness_BufferBitsAboveNumBits :
    (params 10 2 (.belowModulus 1009)).wf = true ∧
    (attempt (params 10 2 (.belowModulus 1009)) { reg := 0xDA7C54B35F2F8DA4E96D#80, cur := 80 }).map
      Prod.fst = some [0xD2#8, 0x02#8] ∧
    nextOf (exec .nextfe (readyAt (params 10 2 (.belowModulus 1009)) 0xDA7C54B35F2F8DA4E96D#80 80
        (.running 0xC000000000000#52))) =
      some (readyAt (params 10 2 (.belowModulus 1009)) 0x5F2F8DA4E96D95DAEFB0#80 76
        (okData [0xD2#8, 0x02#8])) := by decide +kernel

/-- The attempts of V12 from its third NEXTFE: the first rejected, the second accepted. -/
theorem witness_NextfeReturnsTheFirstAcceptedBuffer :
    (readyAt (toy 131) e12.reg e12.cur).phase = .ready ∧
    (∀ i, i < 1 → Rejected (toy 131) e12 i) ∧
    attemptAt (toy 131) 1 e12 = some ([0x77#8], { reg := 0x262ADE6BA89FF13B3D97#80, cur := 74 }) ∧
    accepts (toy 131) [0x77#8] = true := by
  refine ⟨rfl, ?_, by decide +kernel, by decide⟩
  intro i hi
  obtain rfl : i = 0 := by omega
  exact ⟨_, _, test_attempt.1, by decide⟩

/-- The first clause, and the second at the values 0, MODULUS - 1 and MODULUS (R156). -/
theorem witness_NextfeResultIsAccepted :
    exec .nextfe (readyAt (toy 131) e12.reg e12.cur (.running 0xC000000000000#52)) =
      .next (readyAt (toy 131) 0x262ADE6BA89FF13B3D97#80 74 (okData [0x77#8])) ∧
    accepts (toy 131) [0x00#8] = true ∧ accepts (toy 131) [0x82#8] = true ∧ accepts (toy 131) [0x83#8] = false :=
  ⟨eq_next (by decide +kernel), by decide, by decide, by decide⟩

/-- Both clauses: the eight bits pack to `C2`, which modulus 131 rejects and modulus 251 accepts. -/
theorem witness_NextfeFromNextbits :
    ((nextbits 8 (readyAt (toy 131) e12.reg e12.cur (.running 0xC000000000000#52))).map
      fun q => (pack 1 q.1, q.2.eng)) = some ([0xC2#8], e12') ∧
    ((nextbits 8 (readyAt (toy 251) e12.reg e12.cur (.running 0xC000000000000#52))).map
      fun q => (pack 1 q.1, q.2.eng)) = some ([0xC2#8], e12') ∧
    accepts (toy 131) [0xC2#8] = false ∧ accepts (toy 251) [0xC2#8] = true ∧
    (toy 131).wf = true ∧ (toy 251).wf = true := by decide +kernel

/-- A well-formed instance whose `Parse` accepts nothing: every attempt is rejected. -/
theorem witness_HungCommandStaysInProgress :
    rejectAll.wf = true ∧
    (readyAt rejectAll r1 80 (.running 0xC000000000000#52) [{}]).phase = .ready ∧
    decode 0xC000000000000#52 = .command .nextfe ∧ r1 ≠ 0#80 ∧
    (∀ p ∈ ([{}] : List Edge), p.rst = false) ∧
    ∀ i, Rejected rejectAll { reg := r1, cur := 80 } i := by
  refine ⟨by decide, rfl, by decide, by decide, by decide, fun i => ?_⟩
  obtain ⟨r, hr, _⟩ := Laws.attemptAt_isSome rejectAll i (e := { reg := r1, cur := 80 }) (by decide)
  exact ⟨r.1, r.2, hr, rfl⟩

theorem witness_RefusalSetsOnlyTheFlag : decode 0#52 = .illegal .reservedOp ∧
    (readyAt (toy 251) r1 80).phase ≠ .unconstructed ∧ (fresh (toy 251)).phase ≠ .ready := by decide

/-- Both alternatives, at the bounds. -/
theorem witness_IllegalWordIsRefused :
    (nextEdge (fresh (toy 251) (.running 1#52))).rst = false ∧
    (nextEdge (fresh (toy 251) (.running 1#52))).stall = false ∧
    (BitVec.ofNat 52 (2 ^ 50 - 1)).toNat / 2 ^ 50 = 0 ∧
    2 ≤ (0x8000000000001#52).toNat / 2 ^ 50 ∧ (0x8000000000001#52).toNat % 2 ^ 50 ≠ 0 ∧
    (0xFFFFFFFFFFFFF#52).toNat / 2 ^ 50 = 3 := by decide

theorem witness_StepRunsTheDecodedCommand :
    decode 0x8000000000000#52 = .command .nextbit ∧
    (nextEdge (readyAt (toy 251) r1 80 (.running 0x8000000000000#52))).rst = false ∧
    nextOf (step (readyAt (toy 251) r1 80 (.running 0x8000000000000#52))) =
      some (readyAt (toy 251) 0xDCF8B12C67B0B33F5EFB#80 74 (okBit true)) := by decide +kernel

theorem witness_CommandsKeepTheirFrame : ∃ t, exec .nextbit (readyAt (toy 251) r1 80) = .next t :=
  ⟨readyAt (toy 251) 0xDCF8B12C67B0B33F5EFB#80 74 (okBit true), eq_next (by decide +kernel)⟩

theorem witness_IdleBlockAcceptsOrWaits : (fresh (toy 251)).port = .idle ∧
    (nextEdge (fresh (toy 251))).rst = false ∧
    (nextEdge (fresh (toy 251) .idle [{ cmdValid := true }])).cmdValid = true := by decide

theorem witness_ResponseIsHeldUntilTaken :
    (readyAt (toy 251) r1 80 (okBit true)).port = okBit true ∧
    (nextEdge (readyAt (toy 251) r1 80 (okBit true))).rspReady = false ∧
    (nextEdge (readyAt (toy 251) r1 80 (okBit true) [{ rspReady := true }])).rspReady = true := by decide

theorem witness_BusyBlockIgnoresTheCommandPort :
    (fresh (toy 251) (.running 1#52)).busy = true ∧ (readyAt (toy 251) r1 80 (okBit true)).busy = true := by
  decide

theorem witness_ThreeEdgesPerformACommand : (readyAt (toy 251) r1 80).port = .idle ∧
    nextOf (command 0x8000000000000#52
      (readyAt (toy 251) r1 80 (.running 0x8000000000000#52) [{ rspReady := true }])) =
      some (readyAt (toy 251) 0xDCF8B12C67B0B33F5EFB#80 74 (okBit true) [{ rspReady := true }]) := by
  decide +kernel

theorem witness_StallsOnlyDelay : (fresh (toy 251) (.running 1#52)).port = .running 1#52 := by decide

theorem witness_ResetFromAnyState :
    (nextEdge (fresh (toy 251) (.running 1#52) [{ rst := true }])).rst = true := by decide

theorem witness_InvariantIsKeptByEveryStep :
    Safety.Invariant (readyAt (toy 251) r1 80 (.running 0x8000000000000#52)) ∧
    ∃ t, step (readyAt (toy 251) r1 80 (.running 0x8000000000000#52)) = .next t :=
  ⟨⟨.inr rfl, fun _ => ⟨by decide, by decide⟩, by decide, fun r h => nomatch h⟩, _,
    eq_next witness_StepRunsTheDecodedCommand.2.2⟩

theorem witness_InvariantHoldsAtReset : (toy 251).wf = true := by decide

/-- Each clause: READY left by RESET only, UNCONSTRUCTED left by INIT, RESET taken. -/
theorem witness_OnlyResetLeavesReady :
    resetNext (readyAt (toy 251) r1 80 .idle [{ rst := true }]) = true ∧
    (nextOf (step (readyAt (toy 251) r1 80 .idle [{ rst := true }]))).map State.phase = some .unconstructed ∧
    nextOf (step (fresh (toy 251) (.running 0x500FF00302038#52))) =
      some (readyAt (toy 251) r1 80 (refusal .ok)) := by decide +kernel

/-- Each clause: RESET clears the flag, a command keeps it, a refusal sets it. -/
theorem witness_FlagRisesOnlyByRefusal :
    (nextOf (step { fresh (toy 251) .idle [{ rst := true }] with flt := true })).map State.flt = some false ∧
    (nextOf (step { readyAt (toy 251) r1 80 (.running 0x8000000000000#52) with flt := true })).map State.flt =
      some true ∧
    nextOf (step (fresh (toy 251) (.running 0x8000000000000#52))) =
      some { fresh (toy 251) (refusal .notReady) with flt := true } ∧
    nextOf (command 0x8000000000000#52 { fresh (toy 251) with flt := false }) =
      some { fresh (toy 251) (refusal .notReady) with flt := true } := by decide +kernel

theorem witness_ParametersNeverChange :
    run 1 (fresh (toy 251) (.running 0x500FF00302038#52)) = .next (readyAt (toy 251) r1 80 (refusal .ok)) :=
  eq_next (by decide +kernel)

/-- Two different engines before construction, and one step of each. -/
theorem witness_UnspecifiedValuesAreNeverSeen :
    run 1 { fresh (toy 251) (.running 0x8000000000000#52) with eng := { reg := r1, cur := 3 } } =
      .next { fresh (toy 251) (refusal .notReady) with eng := { reg := r1, cur := 3 }, flt := true } ∧
    run 1 { fresh (toy 251) (.running 0x8000000000000#52) with eng := { reg := 7#80, cur := 80 } } =
      .next { fresh (toy 251) (refusal .notReady) with eng := { reg := 7#80, cur := 80 }, flt := true } :=
  ⟨eq_next (by decide +kernel), eq_next (by decide +kernel)⟩

/-- RESET, a wait, INIT of S1, NEXTBIT: the run of the obligation, and what its end shows (P1). -/
theorem witness_CorrectUseIsNeverRefused :
    (∀ p ∈ ([{ rspReady := true }] : List Edge), p.rst = false ∧ p.cmdValid = false) ∧ s1.op = 0b01#2 ∧
    (∀ p ∈ ([{}, { rspReady := true }, { cmdValid := true, cmdWord := 0x8000000000000#52 }] : List Edge),
      p.rst = false ∧ (p.cmdValid = true → p.cmdWord = encode .nextbit ∨ p.cmdWord = encode .nextfe)) ∧
    (nextOf (run 7 { fresh (toy 251) with inputs := { rst := true } :: [{ rspReady := true }] ++
      { cmdValid := true, cmdWord := encode s1 } ::
      [{}, { rspReady := true }, { cmdValid := true, cmdWord := 0x8000000000000#52 }] })).map State.response =
      some (some { status := .ok, bit := some true, data := none }) := by decide +kernel

/-- Spans for the function that accepts an even first byte, on two buffers of its size. -/
theorem witness_SuppliedParseIsAnyTotalFunction :
    accepts (params 1 1 (.supplied ((List.range 128).map fun v => ⟨2 * v, 2 * v + 1⟩))) [0xFE#8] = true ∧
    accepts (params 1 1 (.supplied ((List.range 128).map fun v => ⟨2 * v, 2 * v + 1⟩))) [0xFF#8] = false := by
  decide +kernel

theorem witness_RejectAllNeverResponds : rejectAll.wf = true ∧
    decode 0xC000000000000#52 = .command .nextfe ∧
    (readyAt rejectAll r1 80 (.running 0xC000000000000#52)).eng.reg ≠ 0#80 ∧
    (∀ buf, buf.length = rejectAll.reprBytes → accepts rejectAll buf = false) ∧
    ∀ p ∈ (([] : List Edge).take 5), p.rst = false :=
  ⟨by decide, by decide, by decide, fun _ _ => rfl, by decide⟩

theorem witness_TagsAreNeverInterpreted :
    run 1 (readyAt (toy 251) r1 80 (.running 0x8000000000000#52)) =
      .next (readyAt (toy 251) 0xDCF8B12C67B0B33F5EFB#80 74 (okBit true)) :=
  eq_next witness_StepRunsTheDecodedCommand.2.2

/-- The largest operands, with tags at the ends of their slots. -/
theorem witness_NamedSeedsHoldTheTags :
    (Line.init (SeedSpelling.mk (.variant .binary) (.variant .inverseMap) 4095 4095 1023 1023)).events
      { fkBinary := 3, sbInv := 15 } = some [.command 0x7FFFFFFFFFFFF#52] := by decide

end Sys2Proof.Tests
end

/-! # What is fixed when a block is built: its parameters, its tags and its `Parse` (spec/00_scope.md) -/

namespace Sys2Proof.Proofs

open Sys2Proof.Machine Sys2Proof.Safety Sys2Proof.Laws

/-! ## Runs, step by step -/

/-- A run of `k + 1` steps is a step and a run of `k`. -/
theorem run_succ_cases {k : Nat} {s t : State} (h : run (k + 1) s = .next t) :
    ∃ u, step s = .next u ∧ run k u = .next t := by
  rw [run] at h
  cases hs : step s with
  | next u => rw [hs] at h; exact ⟨u, rfl, h⟩
  | fault r => rw [hs] at h; cases h
  | refused r => rw [hs] at h; cases h

/-- What every step keeps, every run keeps. -/
theorem run_keeps {P : State → Prop} (hstep : ∀ s t, step s = .next t → P s → P t) {k : Nat}
    {s t : State} (h : run k s = .next t) (hs : P s) : P t := by
  induction k generalizing s with
  | zero => cases h; exact hs
  | succ k ih =>
    obtain ⟨u, hu, ht⟩ := run_succ_cases h
    exact ih ht (hstep s u hu hs)

/-- An accepted word is refused, or the instruction it decodes to is executed. -/
theorem command_cases {w : CommandWord} {s : State} {o} (h : command w s = o) :
    (∃ why, decode w = .illegal why ∧ o = .next (raiseRefused .illegal s)) ∨
      ∃ i, decode w = .command i ∧ o = exec i s := by
  unfold command at h
  cases hd : decode w with
  | illegal why => rw [hd] at h; exact .inl ⟨why, rfl, h.symm⟩
  | command i => rw [hd] at h; exact .inr ⟨i, rfl, h.symm⟩

/-! ## The three instructions, an equation per case

The converses of `execInit_cases`, `execNextbit_cases` and `execNextfe_cases`. -/

section Exec
variable {s : State}

theorem execInit_of_ne_unconstructed {fk sb n t rf rp} (hp : s.phase ≠ .unconstructed) :
    execInit fk sb n t rf rp s = .next (raiseRefused .alreadyInit s) := if_pos hp

theorem execInit_of_unconstructed {fk sb n t rf rp} (hp : s.phase = .unconstructed) :
    execInit fk sb n t rf rp s =
      .next (respond (plainResponse .ok) (construct fk sb n t rf rp s)) := if_neg (not_not.mpr hp)

theorem execNextbit_of_ne_ready (hp : s.phase ≠ .ready) :
    execNextbit s = .next (raiseRefused .notReady s) := if_pos hp

theorem execNextbit_of_some {b : Bool} {e : Engine} (hp : s.phase = .ready)
    (hd : dbit s.eng = some (b, e)) :
    execNextbit s = .next (respond (bitResponse b) { s with eng := e }) := by
  rw [execNextbit, if_neg (not_not.mpr hp), hd]

theorem execNextbit_of_none (hp : s.phase = .ready) (hd : dbit s.eng = none) :
    execNextbit s = .next s := by
  rw [execNextbit, if_neg (not_not.mpr hp), hd, stayInProgress]

theorem execNextfe_of_ne_ready (hp : s.phase ≠ .ready) :
    execNextfe s = .next (raiseRefused .notReady s) := if_pos hp

theorem execNextfe_of_some {buf : List Byte} {e : Engine} (hp : s.phase = .ready)
    (hd : sample s.inst s.eng = some (buf, e)) :
    execNextfe s = .next (respond (dataResponse buf) { s with eng := e }) := by
  rw [execNextfe, if_neg (not_not.mpr hp), hd]

theorem execNextfe_of_none (hp : s.phase = .ready) (hd : sample s.inst s.eng = none) :
    execNextfe s = .next s := by
  rw [execNextfe, if_neg (not_not.mpr hp), hd, stayInProgress]

end Exec

/-! ## The parameters never change -/

theorem exec_inst {i : Instr} {s t : State} (h : exec i s = .next t) : t.inst = s.inst := by
  cases i with
  | init fk sb n tt rf rp =>
    obtain ⟨_, ho⟩ | ⟨_, ho⟩ := execInit_cases (o := .next t) h <;> cases ho <;> rfl
  | nextbit =>
    obtain ⟨_, ho⟩ | ⟨_, _, _, _, ho⟩ | ⟨_, _, ho⟩ := execNextbit_cases (o := .next t) h <;>
      cases ho <;> rfl
  | nextfe =>
    obtain ⟨_, ho⟩ | ⟨_, _, _, _, ho⟩ | ⟨_, _, ho⟩ := execNextfe_cases (o := .next t) h <;>
      cases ho <;> rfl

theorem command_inst {w : CommandWord} {s t : State} (h : command w s = .next t) :
    t.inst = s.inst := by
  obtain ⟨_, _, ho⟩ | ⟨i, _, ho⟩ := command_cases h
  · cases ho; rfl
  · exact exec_inst ho.symm

theorem step_inst {s t : State} (h : step s = .next t) : t.inst = s.inst := by
  obtain ⟨_, ho⟩ | ⟨_, _, _, ho⟩ | ⟨_, _, _, ho⟩ | ⟨_, _, _, ho⟩ | ⟨_, _, w, _, ho⟩ |
    ⟨_, _, _, ho⟩ | ⟨_, _, _, ho⟩ := edge_cases h
  -- the edge at which an accepted word completes; the others write no parameter
  on_goal 5 => exact command_inst (s := consumeEdge s) ho.symm
  all_goals cases ho; rfl

/-- Settles O41: every step keeps the parameters, so every run does. -/
theorem parametersNeverChange : Obligations.ParametersNeverChange := by
  intro k s t h
  exact run_keeps (P := fun u => u.inst = s.inst) (fun _ _ hu hs => (step_inst hu).trans hs) h rfl

/-! ## The tags are never interpreted -/

section WithTags
variable (g : Config.Tags) (s : State)

@[simp] theorem sample_tags (p : Config.Params) (e : Engine) :
    sample { p with tags := g } e = sample p e := sampleLoop_tags p g engineStates e

@[simp] theorem raiseRefused_withTags (c : Status) :
    raiseRefused c (withTags g s) = withTags g (raiseRefused c s) := rfl

@[simp] theorem accept_withTags (w : CommandWord) :
    accept w (withTags g s) = withTags g (accept w s) := rfl

@[simp] theorem takeResponse_withTags :
    takeResponse (withTags g s) = withTags g (takeResponse s) := rfl

@[simp] theorem resetEvent_withTags : resetEvent (withTags g s) = withTags g (resetEvent s) := rfl

@[simp] theorem consumeEdge_withTags :
    consumeEdge (withTags g s) = withTags g (consumeEdge s) := rfl

@[simp] theorem nextEdge_withTags : nextEdge (withTags g s) = nextEdge s := rfl

end WithTags

theorem exec_withTags (g : Config.Tags) {i : Instr} {s t : State} (h : exec i s = .next t) :
    exec i (withTags g s) = .next (withTags g t) := by
  cases i with
  | init fk sb n tt rf rp =>
    obtain ⟨hp, ho⟩ | ⟨hp, ho⟩ := execInit_cases (o := .next t) h <;> cases ho
    · exact execInit_of_ne_unconstructed hp
    · exact execInit_of_unconstructed hp
  | nextbit =>
    obtain ⟨hp, ho⟩ | ⟨hp, b, e, hd, ho⟩ | ⟨hp, hd, ho⟩ := execNextbit_cases (o := .next t) h <;>
      cases ho
    · exact execNextbit_of_ne_ready hp
    · exact execNextbit_of_some hp hd
    · exact execNextbit_of_none hp hd
  | nextfe =>
    have htags := sample_tags g s.inst s.eng
    obtain ⟨hp, ho⟩ | ⟨hp, buf, e, hd, ho⟩ | ⟨hp, hd, ho⟩ := execNextfe_cases (o := .next t) h <;>
      cases ho
    · exact execNextfe_of_ne_ready hp
    · exact execNextfe_of_some hp (htags.trans hd)
    · exact execNextfe_of_none hp (htags.trans hd)

theorem command_withTags (g : Config.Tags) {w : CommandWord} {s t : State}
    (h : command w s = .next t) : command w (withTags g s) = .next (withTags g t) := by
  obtain ⟨why, hd, ho⟩ | ⟨i, hd, ho⟩ := command_cases h
  · cases ho; simp [command, hd]
  · simpa [command, hd] using exec_withTags g ho.symm

theorem edge_withTags (g : Config.Tags) {p : Edge} {s t : State} (h : edge p s = .next t) :
    edge p (withTags g s) = .next (withTags g t) := by
  obtain ⟨hr, ho⟩ | ⟨hr, hp, hv, ho⟩ | ⟨hr, hp, hv, ho⟩ | ⟨hr, ⟨w, hp⟩, hst, ho⟩ |
    ⟨hr, hst, w, hp, ho⟩ | ⟨hr, ⟨r, hp⟩, hv, ho⟩ | ⟨hr, ⟨r, hp⟩, hv, ho⟩ := edge_cases h
  -- the edge at which an accepted word completes; the others touch the port or reset the block
  on_goal 5 => simpa [edge, hr, hp, hst] using command_withTags g ho.symm
  all_goals cases ho; simp [edge, *]

theorem step_withTags (g : Config.Tags) {s t : State} (h : step s = .next t) :
    step (withTags g s) = .next (withTags g t) := by
  rw [step, nextEdge_withTags, consumeEdge_withTags]
  exact edge_withTags g h

/-- Settles O46: changing the tags commutes with every step, hence with every run. -/
theorem tagsAreNeverInterpreted : Obligations.TagsAreNeverInterpreted := by
  intro k s t g h
  induction k generalizing s with
  | zero => cases h; rfl
  | succ k ih =>
    obtain ⟨u, hu, ht⟩ := run_succ_cases h
    rw [run_succ_of_next (step_withTags g hu)]
    exact ih u ht

/-! ## A supplied `Parse` is any total function of the buffer -/

/-- A buffer's value is below the number of buffers of its size. -/
theorem bufValue_lt (buf : List Byte) : bufValue buf < 256 ^ buf.length := by
  induction buf with
  | nil => simp [bufValue]
  | cons b rest ih =>
    have hb := b.isLt
    rw [bufValue, List.length_cons, Nat.pow_succ]
    omega

/-- The buffer of `n` bytes with value `v`, least significant byte first. -/
def bufOfValue : (n v : Nat) → List Byte
  | 0, _ => []
  | n + 1, v => BitVec.ofNat 8 v :: bufOfValue n (v / 256)

/-- `bufOfValue` gives a buffer back from its size and value. -/
theorem bufOfValue_bufValue (buf : List Byte) : bufOfValue buf.length (bufValue buf) = buf := by
  induction buf with
  | nil => rfl
  | cons b rest ih =>
    have hb := b.isLt
    have hlow : BitVec.ofNat 8 (b.toNat + 256 * bufValue rest) = b :=
      BitVec.eq_of_toNat_eq (by rw [BitVec.toNat_ofNat]; omega)
    have hhigh : (b.toNat + 256 * bufValue rest) / 256 = bufValue rest := by omega
    rw [List.length_cons, bufValue, bufOfValue, hlow, hhigh, ih]

/-- One span for each value of an `n`-byte buffer that `f` accepts. -/
def spansOf (f : List Byte → Bool) (n : Nat) : List Config.Span :=
  ((List.range (256 ^ n)).filter fun v => f (bufOfValue n v)).map fun v => ⟨v, v + 1⟩

/-- The spans of `f` hold the value of a buffer exactly where `f` accepts the buffer. -/
theorem exists_span_iff (f : List Byte → Bool) (buf : List Byte) :
    (∃ r ∈ spansOf f buf.length, r.first ≤ bufValue buf ∧ bufValue buf < r.past) ↔
      f buf = true := by
  constructor
  · rintro ⟨r, hr, hlo, hhi⟩
    obtain ⟨v, hv, rfl⟩ := List.mem_map.mp hr
    obtain rfl : v = bufValue buf := le_antisymm hlo (Nat.lt_succ_iff.mp hhi)
    simpa [bufOfValue_bufValue] using (List.mem_filter.mp hv).2
  · intro hf
    refine ⟨⟨bufValue buf, bufValue buf + 1⟩, List.mem_map.mpr ⟨_, ?_, rfl⟩, le_rfl, Nat.lt_succ_self _⟩
    exact List.mem_filter.mpr ⟨List.mem_range.mpr (bufValue_lt buf), by rwa [bufOfValue_bufValue]⟩

/-- Settles O44: the spans are the values of the accepted buffers, each on its own. -/
theorem suppliedParseIsAnyTotalFunction : Obligations.SuppliedParseIsAnyTotalFunction := by
  intro f n
  refine ⟨spansOf f n, fun p buf _ hp hl => ?_⟩
  subst hl
  rw [Bool.eq_iff_iff, ← exists_span_iff f buf]
  simp [accepts, hp]

/-! ## An `INIT` line spelled by name -/

/-- A concatenation as a number: the left word counts in units of the right one's size. -/
theorem toNat_append_eq_add {v w : Nat} (x : BitVec v) (y : BitVec w) :
    (x ++ y).toNat = x.toNat * 2 ^ w + y.toNat := by
  rw [BitVec.toNat_append, ← Nat.shiftLeft_add_eq_or_of_lt y.isLt, Nat.shiftLeft_eq]

/-- The word of an `INIT` as a number (spec/30_encoding.md R73). -/
theorem toNat_encode_init (fk : BitVec 2) (sb : BitVec 4) (n t : BitVec 12) (rf rp : BitVec 10) :
    (encode (.init fk sb n t rf rp)).toNat =
      2 ^ 50 + fk.toNat * 2 ^ 48 + sb.toNat * 2 ^ 44 + n.toNat * 2 ^ 32 + t.toNat * 2 ^ 20 +
        rf.toNat * 2 ^ 10 + rp.toNat := by
  simp only [encode, Instr.op, Instr.payload, seedWord, toNat_append_eq_add, BitVec.toNat_ofNat]
  omega

/-- The word of an `INIT` whose six values fit their slots (spec/30_encoding.md R73, R101). -/
theorem encode_eq_of_instr_eq_some {p : SeedNats} {i : Instr} (h : p.instr? = some i) :
    encode i = BitVec.ofNat 52 (2 ^ 50 + p.fk * 2 ^ 48 + p.sb * 2 ^ 44 + p.n * 2 ^ 32 +
      p.t * 2 ^ 20 + p.rf * 2 ^ 10 + p.rp) := by
  rw [SeedNats.instr?] at h
  split at h
  · rename_i hfit
    cases h
    simp only [SeedNats.fits, Bool.and_eq_true, decide_eq_true_eq] at hfit
    obtain ⟨⟨⟨⟨⟨hfk, hsb⟩, hn⟩, ht⟩, hrf⟩, hrp⟩ := hfit
    rw [← BitVec.setWidth_eq (encode _), ← BitVec.ofNat_toNat, toNat_encode_init]
    simp only [BitVec.toNat_ofNat, Nat.mod_eq_of_lt, *]
  · cases h

/-- A tag fits its slot, so a line with named variants is refused for its numbers only. -/
theorem fits_of_variants (g : Config.Tags) (fk : Config.FieldKind) (sb : Config.SboxKind)
    {n t rf rp : Nat} (hn : n < 4096) (ht : t < 4096) (hrf : rf < 1024) (hrp : rp < 1024) :
    (SeedSpelling.nats g ⟨.variant fk, .variant sb, n, t, rf, rp⟩).fits = true := by
  simp [SeedNats.fits, SeedSpelling.nats, Spelled.value, Config.wN, Config.wT, Config.wRf,
    Config.wRp, BitVec.isLt, *]

/-- Settles O47: the line's values fit, so it spells the word with those values in their slots. -/
theorem namedSeedsHoldTheTags : Obligations.NamedSeedsHoldTheTags := by
  refine ⟨fun g fk sb n t rf rp hn ht hrf hrp => ?_, rfl, rfl, rfl, rfl⟩
  have hfit := fits_of_variants g fk sb hn ht hrf hrp
  obtain ⟨i, hi⟩ : ∃ i, (SeedSpelling.nats g ⟨.variant fk, .variant sb, n, t, rf, rp⟩).instr? =
      some i := ⟨_, if_pos hfit⟩
  rw [Line.events, hi, Option.map_some, encode_eq_of_instr_eq_some hi]
  rfl

end Sys2Proof.Proofs

/-! # The state: its invariant, its phases and its flag (spec/10_state.md) -/

namespace Sys2Proof.Proofs

open Sys2Proof.Machine Sys2Proof.Safety Sys2Proof.Laws

/-! ## What a command and a step can do

Each proof about the state below is a case split along one of these two relations. -/

/-- The answer of a query that ends, and the engine after it. -/
inductive QueryAnswer (s : State) : Response → Engine → Prop
  | bit {b : Bool} {e : Engine} (h : dbit s.eng = some (b, e)) : QueryAnswer s (bitResponse b) e
  | data {buf : List Byte} {e : Engine} (h : sample s.inst s.eng = some (buf, e)) :
    QueryAnswer s (dataResponse buf) e

theorem QueryAnswer.status_eq_ok {s : State} {r : Response} {e : Engine} (h : QueryAnswer s r e) :
    r.status = .ok := by
  cases h <;> rfl

/-- What a command with the operation code `op` can make of the state `s`. -/
inductive CommandEffect (op : BitVec 2) (s : State) : State → Prop
  /-- The command is refused (spec/60_exceptions.md R202). -/
  | refused {c : Status} (hc : c ≠ .ok) : CommandEffect op s (raiseRefused c s)
  /-- `INIT` runs (spec/40_seed_encoder.md R104). -/
  | constructed (fk : BitVec 2) (sb : BitVec 4) (n t : BitVec 12) (rf rp : BitVec 10)
    (hop : op = 0b01#2) (hp : s.phase = .unconstructed) :
    CommandEffect op s (respond (plainResponse .ok) (construct fk sb n t rf rp s))
  /-- A query ends (spec/42_extractor.md R141, spec/43_field_sampler.md R158). -/
  | answered {r : Response} {e : Engine} (hp : s.phase = .ready) (ha : QueryAnswer s r e) :
    CommandEffect op s (respond r { s with eng := e })
  /-- A query never ends (spec/44_host_interface.md R187). -/
  | unfinished (hp : s.phase = .ready) : CommandEffect op s s

theorem exec_effect {i : Instr} {s t : State} (h : exec i s = .next t) :
    CommandEffect i.op s t := by
  cases i with
  | init fk sb n tt rf rp =>
    obtain ⟨_, ho⟩ | ⟨hp, ho⟩ := execInit_cases (o := .next t) h <;> cases ho
    · exact .refused (by decide)
    · exact .constructed fk sb n tt rf rp rfl hp
  | nextbit =>
    obtain ⟨_, ho⟩ | ⟨hp, b, e, hd, ho⟩ | ⟨hp, _, ho⟩ := execNextbit_cases (o := .next t) h <;>
      cases ho
    · exact .refused (by decide)
    · exact .answered hp (.bit hd)
    · exact .unfinished hp
  | nextfe =>
    obtain ⟨_, ho⟩ | ⟨hp, buf, e, hd, ho⟩ | ⟨hp, _, ho⟩ := execNextfe_cases (o := .next t) h <;>
      cases ho
    · exact .refused (by decide)
    · exact .answered hp (.data hd)
    · exact .unfinished hp

/-- A legal word holds the operation code of its instruction (spec/30_encoding.md R71). -/
theorem opField_eq_op_of_decode {w : CommandWord} {i : Instr} (h : decode w = .command i) :
    opField w = i.op := by
  have hlast : ∀ x : BitVec 2, x ≠ 0b00#2 → x ≠ 0b01#2 → x ≠ 0b10#2 → x = 0b11#2 := by decide
  unfold decode at h
  split at h
  · cases h
  · split at h
    · cases h; assumption
    · split at h
      · cases h
      · split at h
        · cases h; assumption
        · cases h; exact hlast _ ‹_› ‹_› ‹_›

theorem command_of_illegal {w : CommandWord} {why : Illegal} {s : State}
    (hd : decode w = .illegal why) : command w s = .next (raiseRefused .illegal s) := by
  rw [command, hd]

theorem command_of_command {w : CommandWord} {i : Instr} {s : State}
    (hd : decode w = .command i) : command w s = exec i s := by
  rw [command, hd]

theorem command_effect {w : CommandWord} {s t : State} (h : command w s = .next t) :
    CommandEffect (opField w) s t := by
  obtain ⟨_, _, ho⟩ | ⟨i, hd, ho⟩ := command_cases h
  · cases ho; exact .refused (by decide)
  · rw [opField_eq_op_of_decode hd]; exact exec_effect ho.symm

/-- What one step can make of the state `s`. -/
inductive StepEffect (s : State) : State → Prop
  /-- RESET (spec/44_host_interface.md R184). -/
  | reset (hr : resetNext s = true) : StepEffect s (resetEvent (consumeEdge s))
  /-- The command in progress completes. -/
  | completes {w : CommandWord} {t : State} (hr : resetNext s = false) (hw : s.port = .running w)
    (h : CommandEffect (opField w) (consumeEdge s) t) : StepEffect s t
  /-- The handshake moves or the block waits (R181, R182): no response appears that was not there. -/
  | handshake {p : Port} (hr : resetNext s = false)
    (hp : ∀ r, p = .responding r → s.port = .responding r) :
    StepEffect s { consumeEdge s with port := p }

theorem step_effect {s t : State} (h : step s = .next t) : StepEffect s t := by
  obtain ⟨hr, ho⟩ | ⟨hr, _, _, ho⟩ | ⟨hr, _, _, ho⟩ | ⟨hr, _, _, ho⟩ | ⟨hr, _, w, hw, ho⟩ |
    ⟨hr, _, _, ho⟩ | ⟨hr, _, _, ho⟩ := edge_cases h
  · cases ho; exact .reset hr
  · cases ho; exact .handshake hr nofun
  · cases ho; exact .handshake hr (fun _ => id)
  · cases ho; exact .handshake hr (fun _ => id)
  · exact .completes hr hw (command_effect ho.symm)
  · cases ho; exact .handshake hr nofun
  · cases ho; exact .handshake hr (fun _ => id)

/-! ## The invariant -/

/-- What the invariant asks of a READY block's engine (spec/10_state.md R25, R30). -/
def EngineOk (e : Engine) : Prop :=
  e.reg ≠ 0#80 ∧ (e.cur = 74 ∨ e.cur = 76 ∨ e.cur = 78 ∨ e.cur = 80)

theorem engineOk_afterRaw_pairs (m : Nat) {e : Engine} (h : EngineOk e) :
    EngineOk (afterRaw (2 * m) e) :=
  ⟨afterRaw_reg_ne_zero _ h.1, cur_afterRaw_pairs m h.2⟩

/-- The fill bits of the seed Register are ones (spec/30_encoding.md R74), so it is not zero. -/
theorem seedRegister_ne_zero (fk : BitVec 2) (sb : BitVec 4) (n t : BitVec 12) (rf rp : BitVec 10) :
    seedRegister fk sb n t rf rp ≠ 0#80 := by
  intro h
  have hfill : (seedRegister fk sb n t rf rp).getLsbD 0 = true := by
    rw [seedRegister, BitVec.getLsbD_append]
    simp
  simp [h] at hfill

/-- Refills do not lead to the zero Register (spec/41_lfsr_engine.md R126). -/
theorem refillReg_iterate_ne_zero (k : Nat) {r : Register} (h : r ≠ 0#80) :
    refillReg^[k] r ≠ 0#80 := by
  intro h0
  refine h (eq_zero_of_stream_zero (k := 8 * k) fun m => ?_)
  rw [← streamBit_refill_iterate, h0, streamBit_zero]

theorem engineOk_construct (fk : BitVec 2) (sb : BitVec 4) (n t : BitVec 12) (rf rp : BitVec 10)
    (s : State) : EngineOk (construct fk sb n t rf rp s).eng := by
  rw [construct_eng]
  exact ⟨refillReg_iterate_ne_zero 20 (seedRegister_ne_zero fk sb n t rf rp),
    .inr (.inr (.inr rfl))⟩

/-- A query consumes whole pairs of raw bits (spec/42_extractor.md R142). -/
theorem QueryAnswer.eq_afterRaw_pairs {s : State} {r : Response} {e : Engine}
    (h : QueryAnswer s r e) : ∃ m, e = afterRaw (2 * m) s.eng := by
  cases h with
  | bit hd =>
    obtain ⟨m, _, _, he⟩ := dbit_pairs hd
    exact ⟨m, he⟩
  | data hs =>
    obtain ⟨a, _, ha, _⟩ := (sample_eq_some_iff _ _ _ _).mp hs
    obtain ⟨m, _, _, he⟩ := attemptAt_pairs ha
    exact ⟨m, he⟩

/-- Well-formed parameters leave room for the derived bits of an attempt (spec/43_field_sampler.md R155). -/
theorem numBits_le_of_wf {p : Config.Params} (h : p.wf = true) : p.numBits ≤ 8 * p.reprBytes := by
  simp only [Config.Params.wf, Bool.and_eq_true, decide_eq_true_eq] at h
  obtain ⟨⟨_, hn⟩, _⟩ := h
  exact hn

/-- An attempt sets no bit of the buffer above `NUM_BITS` (spec/43_field_sampler.md R159). -/
theorem bufBit_attempt_of_le {p : Config.Params} (hwf : p.wf = true) {e e' : Engine}
    {buf : List Byte} (h : attempt p e = some (buf, e')) {k : Nat} (hk : p.numBits ≤ k) :
    bufBit buf k = false := by
  have hroom : 0 + p.numBits ≤ 8 * (zeroBuf p.reprBytes).length := by
    simpa using numBits_le_of_wf hwf
  obtain ⟨ds, hd⟩ := derivedBits_of_attemptLoop h
  obtain ⟨hlen, buf', hloop, _, hbits⟩ := attemptLoop_of_derivedBits hroom hd
  obtain rfl : buf' = buf := congrArg Prod.fst (Option.some.inj (hloop.symm.trans h))
  have hpast : ds.length ≤ k := hlen.trans_le hk
  simp [hbits, List.getElem?_eq_none hpast]

theorem bufValue_lt_of_attempt {p : Config.Params} (hwf : p.wf = true) {e e' : Engine}
    {buf : List Byte} (h : attempt p e = some (buf, e')) : bufValue buf < 2 ^ p.numBits := by
  refine Nat.lt_pow_two_of_testBit _ fun k hk => ?_
  rw [testBit_bufValue]
  exact bufBit_attempt_of_le hwf h hk

/-- What R159 and R163 say of the buffer a `NEXTFE` returns. -/
theorem sample_buffer {p : Config.Params} (hwf : p.wf = true) {e e' : Engine} {buf : List Byte}
    (h : sample p e = some (buf, e')) :
    buf.length = p.reprBytes ∧ bufValue buf < 2 ^ p.numBits ∧ accepts p buf = true := by
  obtain ⟨_, _, ha, hacc⟩ := (sample_eq_some_iff p e buf e').mp h
  have hattempt := attempt_iterate_of_attemptAt ha
  exact ⟨attempt_length hattempt, bufValue_lt_of_attempt hwf hattempt, hacc⟩

/-- A success without data is a response R79 allows a READY block. -/
theorem responseOk_of_data_eq_none {s : State} {r : Response} (hp : s.phase = .ready)
    (hok : r.status = .ok) (hd : r.data = none) : ResponseOk s r := by
  refine ⟨fun _ => hp, fun h => absurd hok h, fun _ => hd, fun buf hb => ?_⟩
  rw [hd] at hb
  cases hb

theorem responseOk_refusal {s : State} {c : Status} (hc : c ≠ .ok) (hf : s.flt = true) :
    ResponseOk s (plainResponse c) :=
  ⟨fun h => absurd h hc, fun _ => ⟨hf, rfl, rfl⟩, fun _ => rfl, nofun⟩

theorem QueryAnswer.responseOk {s : State} {r : Response} {e : Engine} (h : QueryAnswer s r e)
    (hp : s.phase = .ready) (hwf : s.inst.wf = true) : ResponseOk s r := by
  cases h with
  | bit _ => exact responseOk_of_data_eq_none hp rfl rfl
  | data hs =>
    refine ⟨fun _ => hp, fun h => absurd rfl h, nofun, fun buf hb => ?_⟩
    cases hb
    exact sample_buffer hwf hs

theorem invariant_respond {s : State} {r : Response}
    (hphase : s.phase = .unconstructed ∨ s.phase = .ready) (heng : s.phase = .ready → EngineOk s.eng)
    (hwf : s.inst.wf = true) (hr : ResponseOk s r) : Invariant (respond r s) := by
  refine ⟨hphase, heng, hwf, fun r' h => ?_⟩
  cases h
  exact hr

/-- The invariant asks nothing of the engine before construction (spec/10_state.md R34). -/
theorem invariant_of_unconstructed_idle {s : State} (hphase : s.phase = .unconstructed)
    (hport : s.port = .idle) (hwf : s.inst.wf = true) : Invariant s := by
  refine ⟨.inl hphase, fun h => ?_, hwf, fun r h => ?_⟩
  · rw [hphase] at h; cases h
  · rw [hport] at h; cases h

theorem commandEffect_invariant {op : BitVec 2} {s t : State} (h : CommandEffect op s t)
    (hinv : Invariant s) : Invariant t := by
  have ⟨hphase, heng, hwf, _⟩ := hinv
  cases h with
  | refused hc =>
    exact invariant_respond (s := raiseFlt s) hphase heng hwf (responseOk_refusal hc rfl)
  | constructed fk sb n tt rf rp _ _ =>
    exact invariant_respond (.inr rfl) (fun _ => engineOk_construct fk sb n tt rf rp s) hwf
      (responseOk_of_data_eq_none rfl rfl rfl)
  | @answered r e hp ha =>
    obtain ⟨m, he⟩ := ha.eq_afterRaw_pairs
    have hok : EngineOk e := he ▸ engineOk_afterRaw_pairs m (heng hp)
    exact invariant_respond (s := { s with eng := e }) hphase (fun _ => hok) hwf
      (ha.responseOk hp hwf)
  | unfinished _ => exact hinv

/-- Settles O36: RESET and the handshake move the port and the phase only to what the invariant
allows, and a command that completes keeps it. -/
theorem invariantIsKeptByEveryStep : Obligations.InvariantIsKeptByEveryStep := by
  intro s t hinv h
  have ⟨hphase, heng, hwf, hresp⟩ := hinv
  cases step_effect h with
  | reset _ => exact invariant_of_unconstructed_idle rfl rfl hwf
  | completes _ _ hc => exact commandEffect_invariant hc hinv
  | handshake _ hp => exact ⟨hphase, heng, hwf, fun r hr => hresp r (hp r hr)⟩

/-- Settles O37: after RESET the block is unconstructed and presents nothing. -/
theorem invariantHoldsAtReset : Obligations.InvariantHoldsAtReset :=
  fun _ _ hwf => invariant_of_unconstructed_idle rfl rfl hwf

/-! ## The frame of the commands -/

/-- Settles O29: each effect of a command has the frame. -/
theorem commandsKeepTheirFrame : Obligations.CommandsKeepTheirFrame := by
  intro i s t h
  cases exec_effect h with
  | refused hc =>
    exact ⟨rfl, rfl, rfl, .inl rfl, .inr ⟨rfl, rfl, rfl, _, rfl, hc⟩, .inr ⟨_, rfl⟩⟩
  | constructed fk sb n tt rf rp hop hp =>
    exact ⟨rfl, rfl, rfl, .inr ⟨hop, hp, rfl⟩, .inl rfl, .inr ⟨_, rfl⟩⟩
  | answered _ _ => exact ⟨rfl, rfl, rfl, .inl rfl, .inl rfl, .inr ⟨_, rfl⟩⟩
  | unfinished _ => exact ⟨rfl, rfl, rfl, .inl rfl, .inl rfl, .inl rfl⟩

/-! ## The phase -/

/-- Settles O39: of all effects of a step only RESET and an `INIT` that runs change the phase. -/
theorem onlyResetLeavesReady : Obligations.OnlyResetLeavesReady := by
  intro s t h
  cases step_effect h with
  | reset hr => exact ⟨fun _ => .inr ⟨hr, rfl⟩, fun _ => .inl rfl, fun _ => rfl⟩
  | handshake hr _ => exact ⟨.inl, .inl, fun h => absurd h (by simp [hr])⟩
  | @completes w _ hr hw hc =>
    have hreset : resetNext s = true → t.phase = .unconstructed := fun h => absurd h (by simp [hr])
    cases hc with
    | refused _ => exact ⟨.inl, .inl, hreset⟩
    | constructed fk sb n tt rf rp hop _ =>
      exact ⟨fun _ => .inl rfl, fun _ => .inr ⟨rfl, hr, w, hw, hop⟩, hreset⟩
    | answered _ _ => exact ⟨.inl, .inl, hreset⟩
    | unfinished _ => exact ⟨.inl, .inl, hreset⟩

/-! ## The flag -/

/-- A command raises the flag exactly by a refusal, which is its response, and never clears it. -/
theorem commandEffect_flt {op : BitVec 2} {s t : State} (h : CommandEffect op s t)
    (hs : ∀ r, s.port ≠ .responding r) :
    t.flt = true ↔ s.flt = true ∨ ∃ r, t.port = .responding r ∧ r.status ≠ .ok := by
  cases h with
  | refused hc => simpa using .inr hc
  | constructed fk sb n tt rf rp _ _ => simp [plainResponse]
  | answered _ ha => simp [ha.status_eq_ok]
  | unfinished _ => simp [hs]

/-- The raised flag changes the meaning of no instruction (spec/10_state.md R27). -/
theorem exec_raiseFlt {i : Instr} {s t : State} (h : exec i s = .next t) :
    exec i (raiseFlt s) = .next (raiseFlt t) := by
  cases i with
  | init fk sb n tt rf rp =>
    obtain ⟨hp, ho⟩ | ⟨hp, ho⟩ := execInit_cases (o := .next t) h <;> cases ho
    · exact execInit_of_ne_unconstructed hp
    · exact execInit_of_unconstructed hp
  | nextbit =>
    obtain ⟨hp, ho⟩ | ⟨hp, b, e, hd, ho⟩ | ⟨hp, hd, ho⟩ := execNextbit_cases (o := .next t) h <;>
      cases ho
    · exact execNextbit_of_ne_ready hp
    · exact execNextbit_of_some hp hd
    · exact execNextbit_of_none hp hd
  | nextfe =>
    obtain ⟨hp, ho⟩ | ⟨hp, buf, e, hd, ho⟩ | ⟨hp, hd, ho⟩ := execNextfe_cases (o := .next t) h <;>
      cases ho
    · exact execNextfe_of_ne_ready hp
    · exact execNextfe_of_some hp hd
    · exact execNextfe_of_none hp hd

/-- A command does the same with the flag raised beforehand (spec/10_state.md R27). -/
theorem command_raiseFlt {w : CommandWord} {s t : State} (h : command w s = .next t) :
    command w (raiseFlt s) = .next (raiseFlt t) := by
  obtain ⟨why, hd, ho⟩ | ⟨i, hd, ho⟩ := command_cases h
  · cases ho; exact command_of_illegal hd
  · rw [command_of_command hd]; exact exec_raiseFlt ho.symm

/-- Settles O40: the flag after each effect of a step, and `command_raiseFlt`. -/
theorem flagRisesOnlyByRefusal : Obligations.FlagRisesOnlyByRefusal := by
  refine ⟨fun s t h => ?_, fun w s t => command_raiseFlt (s := { s with flt := false })⟩
  cases step_effect h with
  | reset hr => simp [hr]
  | @completes w _ hr hw hc =>
    have hflt := commandEffect_flt hc (by simp [hw])
    simp only [consumeEdge_flt] at hflt
    simp +contextual [hr, hw, hflt]
  | @handshake p hr hp =>
    refine ⟨fun h => absurd h (by simp [hr]), fun _ hf => hf, fun _ hf => ?_⟩
    have hno : ¬ ((∃ w, s.port = .running w) ∧ ∃ r, p = .responding r ∧ r.status ≠ .ok) := by
      rintro ⟨⟨w, hw⟩, r, hpr, _⟩
      exact absurd (hw.symm.trans (hp r hpr)) nofun
    exact ⟨fun h => absurd (hf.symm.trans h) nofun, fun h => absurd h hno⟩

/-! ## What an unconstructed block's engine holds is never seen -/

/-- `t` is `s`, or both are UNCONSTRUCTED and `t` differs from `s` in the engine only. -/
inductive SameUpToUnspecified (s : State) : State → Prop
  | same : SameUpToUnspecified s s
  | engine (e : Engine) (hp : s.phase = .unconstructed) : SameUpToUnspecified s { s with eng := e }

/-- No output port shows the engine (spec/44_host_interface.md R186). -/
theorem SameUpToUnspecified.outputs_eq {s t : State} (h : SameUpToUnspecified s t) :
    s.outputs = t.outputs := by
  cases h <;> rfl

/-- `INIT` overwrites the engine, and the queries are refused before construction. -/
theorem exec_of_unconstructed {i : Instr} {s t : State} (hp : s.phase = .unconstructed)
    (h : exec i s = .next t) (e : Engine) :
    ∃ t', exec i { s with eng := e } = .next t' ∧ SameUpToUnspecified t t' := by
  have hnot : s.phase ≠ .ready := by simp [hp]
  cases i with
  | init fk sb n tt rf rp =>
    cases (execInit_of_unconstructed hp).symm.trans h
    exact ⟨_, execInit_of_unconstructed hp, .same⟩
  | nextbit =>
    cases (execNextbit_of_ne_ready hnot).symm.trans h
    exact ⟨_, execNextbit_of_ne_ready hnot, .engine e hp⟩
  | nextfe =>
    cases (execNextfe_of_ne_ready hnot).symm.trans h
    exact ⟨_, execNextfe_of_ne_ready hnot, .engine e hp⟩

theorem command_of_unconstructed {w : CommandWord} {s t : State} (hp : s.phase = .unconstructed)
    (h : command w s = .next t) (e : Engine) :
    ∃ t', command w { s with eng := e } = .next t' ∧ SameUpToUnspecified t t' := by
  obtain ⟨why, hd, ho⟩ | ⟨i, hd, ho⟩ := command_cases h
  · cases ho
    exact ⟨_, command_of_illegal hd, .engine e hp⟩
  · rw [command_of_command hd]; exact exec_of_unconstructed hp ho.symm e

theorem edge_of_unconstructed {p : Edge} {s t : State} (hp : s.phase = .unconstructed)
    (h : edge p s = .next t) (e : Engine) :
    ∃ t', edge p { s with eng := e } = .next t' ∧ SameUpToUnspecified t t' := by
  obtain ⟨hr, ho⟩ | ⟨hr, hport, hv, ho⟩ | ⟨hr, hport, hv, ho⟩ | ⟨hr, ⟨w, hport⟩, hst, ho⟩ |
    ⟨hr, hst, w, hport, ho⟩ | ⟨hr, ⟨r, hport⟩, hv, ho⟩ | ⟨hr, ⟨r, hport⟩, hv, ho⟩ := edge_cases h
  -- the edge at which an accepted word completes
  on_goal 5 => simpa [edge, hr, hport, hst] using command_of_unconstructed hp ho.symm e
  -- RESET draws new values, the same for both blocks; the others touch the port only
  all_goals cases ho
  on_goal 1 => exact ⟨_, by simp [edge, hr, resetEvent, clearFlt], .same⟩
  all_goals exact ⟨_, by simp [edge, accept, takeResponse, *], .engine e hp⟩

theorem step_sameUpToUnspecified {s s' t : State} (hs : SameUpToUnspecified s s')
    (h : step s = .next t) : ∃ t', step s' = .next t' ∧ SameUpToUnspecified t t' := by
  cases hs with
  | same => exact ⟨t, h, .same⟩
  | engine e hp => exact edge_of_unconstructed (s := consumeEdge s) hp h e

theorem run_sameUpToUnspecified {k : Nat} {s s' t : State} (hs : SameUpToUnspecified s s')
    (h : run k s = .next t) : ∃ t', run k s' = .next t' ∧ SameUpToUnspecified t t' := by
  induction k generalizing s s' with
  | zero => cases h; exact ⟨s', rfl, hs⟩
  | succ k ih =>
    obtain ⟨u, hu, ht⟩ := run_succ_cases h
    obtain ⟨u', hu', hsame⟩ := step_sameUpToUnspecified hs hu
    rw [run_succ_of_next hu']
    exact ih hsame ht

/-- Settles O42: the two blocks stay the same up to what the engine holds before construction, and
so show the same outputs. -/
theorem unspecifiedValuesAreNeverSeen : Obligations.UnspecifiedValuesAreNeverSeen := by
  intro k s t t' e e' hp h h'
  have hs : SameUpToUnspecified { s with eng := e } { s with eng := e' } := .engine e' hp
  obtain ⟨u, hu, hsame⟩ := run_sameUpToUnspecified hs h
  cases hu.symm.trans h'
  exact hsame.outputs_eq

end Sys2Proof.Proofs

/-! # The Register shown as ten bytes (spec/20_memory.md) -/

namespace Sys2Proof.Proofs

open Sys2Proof.Machine

/-- Byte `b` of the Register holds the bits from index `8 * b` on (spec/20_memory.md R53). -/
theorem getMsbD_registerByte (r : Register) {b j : Nat} (hb : b < 10) (hj : j < 8) :
    (registerByte r b).getMsbD j = bit r (8 * b + j) := by
  have hlsb : 72 - 8 * b + (8 - 1 - j) = 80 - 1 - (8 * b + j) := by omega
  have hlt : 8 - 1 - j < 8 ∧ 8 * b + j < 80 := by omega
  rw [registerByte, bit, BitVec.getMsbD_eq_getLsbD, BitVec.getMsbD_eq_getLsbD,
    BitVec.getLsbD_extractLsb', hlsb]
  simp only [hj, hlt, decide_true, Bool.true_and]

/-- The lowest bit of byte `b` has the weight `2 ^ (72 - 8 * b)` (spec/20_memory.md R53). -/
theorem toNat_registerByte (r : Register) (b : Nat) :
    (registerByte r b).toNat = r.toNat / 2 ^ (72 - 8 * b) % 256 := by
  rw [registerByte, BitVec.extractLsb'_toNat, Nat.shiftRight_eq_div_pow]

/-- The first `n` bytes, read as a big-endian number, are the upper `8 * n` bits of the Register. -/
theorem foldl_registerByte (r : Register) {n : Nat} (hn : n ≤ 10) :
    (List.range n).foldl (fun acc b => acc * 256 + (registerByte r b).toNat) 0 =
      r.toNat / 2 ^ (80 - 8 * n) := by
  induction n with
  | zero => simp [Nat.div_eq_of_lt r.isLt]
  | succ n ih =>
    have hweight : 2 ^ (80 - 8 * n) = 2 ^ (72 - 8 * n) * 256 := by
      rw [show 80 - 8 * n = 72 - 8 * n + 8 by omega, Nat.pow_add]
    have hnext : 80 - 8 * (n + 1) = 72 - 8 * n := by omega
    rw [List.range_succ, List.foldl_concat, ih (by omega), toNat_registerByte, hweight, hnext,
      ← Nat.div_div_eq_div_mul, Nat.div_add_mod']

/-- Settles O7: bit by bit, and as the number of all ten bytes. -/
theorem registerBytesAreBigEndian : Obligations.RegisterBytesAreBigEndian := by
  intro r
  refine ⟨fun b j hb hj => getMsbD_registerByte r hb hj, ?_⟩
  simpa using (foldl_registerByte r (le_refl 10)).symm

end Sys2Proof.Proofs

/-! # The encoding: command words, seed words and the Register they fill (spec/30_encoding.md) -/

namespace Sys2Proof.Proofs

open Sys2Proof.Machine Sys2Proof.Safety Sys2Proof.Laws

/-! ## The six slots of a seed word -/

/-- The `INIT` whose operands are the six slots of the seed word `x` (spec/30_encoding.md R73). -/
def initOfSeedWord (x : SeedWord) : Instr :=
  .init (x.extractLsb' 48 2) (x.extractLsb' 44 4) (x.extractLsb' 32 12) (x.extractLsb' 20 12)
    (x.extractLsb' 10 10) (x.extractLsb' 0 10)

/-- A seed word as a number (spec/30_encoding.md R73). -/
theorem toNat_seedWord (fk : BitVec 2) (sb : BitVec 4) (n t : BitVec 12) (rf rp : BitVec 10) :
    (seedWord fk sb n t rf rp).toNat =
      fk.toNat * 2 ^ 48 + sb.toNat * 2 ^ 44 + n.toNat * 2 ^ 32 + t.toNat * 2 ^ 20 +
        rf.toNat * 2 ^ 10 + rp.toNat := by
  simp only [seedWord, toNat_append_eq_add]
  omega

/-- Each slot of a packed seed word holds the operand packed into it. -/
theorem initOfSeedWord_seedWord (fk : BitVec 2) (sb : BitVec 4) (n t : BitVec 12)
    (rf rp : BitVec 10) : initOfSeedWord (seedWord fk sb n t rf rp) = .init fk sb n t rf rp := by
  rw [initOfSeedWord]
  congr 1 <;>
    · apply BitVec.eq_of_toNat_eq
      rw [BitVec.extractLsb'_toNat, toNat_seedWord, Nat.shiftRight_eq_div_pow]
      omega

/-- The six slots leave no bit of a seed word out: packed again they are the word. -/
theorem payload_initOfSeedWord (x : SeedWord) : (initOfSeedWord x).payload = x := by
  simp only [initOfSeedWord, Instr.payload, seedWord]
  rw [BitVec.extractLsb'_append_extractLsb'_eq_extractLsb' (by rfl),
    BitVec.extractLsb'_append_extractLsb'_eq_extractLsb' (by rfl),
    BitVec.extractLsb'_append_extractLsb'_eq_extractLsb' (by rfl),
    BitVec.extractLsb'_append_extractLsb'_eq_extractLsb' (by rfl),
    BitVec.extractLsb'_append_extractLsb'_eq_extractLsb' (by rfl)]
  exact BitVec.extractLsb'_eq_self

/-! ## The decoder, an equation per row of R82 -/

section Decode
variable {w : CommandWord}

theorem decode_of_opField_reserved (hop : opField w = 0b00#2) : decode w = .illegal .reservedOp :=
  if_pos hop

theorem decode_of_opField_init (hop : opField w = 0b01#2) :
    decode w = .command (initOfSeedWord (payload w)) := by
  simp [decode, hop, initOfSeedWord]

theorem decode_of_payload_ne_zero (hreserved : opField w ≠ 0b00#2) (hinit : opField w ≠ 0b01#2)
    (hpay : payload w ≠ 0#50) : decode w = .illegal .payloadNotZero := by
  simp [decode, hreserved, hinit, hpay]

theorem decode_of_opField_nextbit (hop : opField w = 0b10#2) (hpay : payload w = 0#50) :
    decode w = .command .nextbit := by
  simp [decode, hop, hpay]

theorem decode_of_opField_nextfe (hop : opField w = 0b11#2) (hpay : payload w = 0#50) :
    decode w = .command .nextfe := by
  simp [decode, hop, hpay]

end Decode

/-! ## Decoding and encoding are inverse -/

/-- Settles O1: the fields of the word are the instruction's own, and the decoder's row for that
operation code gives the instruction back. -/
theorem decodeOfEncode : Obligations.DecodeOfEncode := by
  intro i _
  obtain ⟨hop, hpay⟩ := Fields.of_append i
  cases i with
  | init fk sb n t rf rp =>
    rw [decode_of_opField_init hop, hpay, Instr.payload, initOfSeedWord_seedWord]
  | nextbit => exact decode_of_opField_nextbit hop hpay
  | nextfe => exact decode_of_opField_nextfe hop hpay

/-- A legal word holds the payload of its instruction (spec/30_encoding.md R72, R75). -/
theorem payload_eq_payload_of_decode {w : CommandWord} {i : Instr} (h : decode w = .command i) :
    payload w = i.payload := by
  have hop := opField_eq_op_of_decode h
  have hzero (h0 : opField w ≠ 0b00#2) (h1 : opField w ≠ 0b01#2) : payload w = 0#50 := by
    by_contra hpay
    cases h.symm.trans (decode_of_payload_ne_zero h0 h1 hpay)
  cases i with
  | init fk sb n t rf rp =>
    cases h.symm.trans (decode_of_opField_init hop)
    exact (payload_initOfSeedWord (payload w)).symm
  | nextbit => exact hzero (hop ▸ by decide) (hop ▸ by decide)
  | nextfe => exact hzero (hop ▸ by decide) (hop ▸ by decide)

/-- A command word is its two fields (spec/30_encoding.md R70). -/
theorem opField_append_payload (w : CommandWord) : opField w ++ payload w = w :=
  BitVec.extractLsb'_append_extractLsb' (w := 2) (len := 50)

/-- Settles O2: a legal word and its instruction's word have the same two fields. -/
theorem encodeOfDecode : Obligations.EncodeOfDecode := by
  intro w i h
  rw [encode, ← opField_eq_op_of_decode h, ← payload_eq_payload_of_decode h, opField_append_payload]

/-! ## The two fields as numbers -/

theorem opField_eq_iff (w : CommandWord) (op : BitVec 2) :
    opField w = op ↔ w.toNat / 2 ^ 50 = op.toNat := by
  have hfield : w.toNat / 2 ^ 50 % 2 ^ 2 = w.toNat / 2 ^ 50 := Nat.mod_eq_of_lt (by omega)
  rw [← BitVec.toNat_inj, opField, BitVec.extractLsb'_toNat, Nat.shiftRight_eq_div_pow, hfield]

theorem payload_eq_zero_iff (w : CommandWord) : payload w = 0#50 ↔ w.toNat % 2 ^ 50 = 0 := by
  rw [← BitVec.toNat_inj, payload, BitVec.extractLsb'_toNat]
  rfl

/-- The seed slots of a command word by its value as a number (spec/30_encoding.md R73). -/
theorem initOfSeedWord_payload (w : CommandWord) :
    initOfSeedWord (payload w) =
      .init (BitVec.ofNat 2 (w.toNat / 2 ^ 48)) (BitVec.ofNat 4 (w.toNat / 2 ^ 44))
        (BitVec.ofNat 12 (w.toNat / 2 ^ 32)) (BitVec.ofNat 12 (w.toNat / 2 ^ 20))
        (BitVec.ofNat 10 (w.toNat / 2 ^ 10)) (BitVec.ofNat 10 w.toNat) := by
  have hslot {start len : Nat} (hlt : start + len ≤ 50) :
      (payload w).extractLsb' start len = BitVec.ofNat len (w.toNat / 2 ^ start) := by
    rw [payload, BitVec.extractLsb'_extractLsb'_of_le hlt, BitVec.extractLsb',
      Nat.shiftRight_eq_div_pow]
  simp [initOfSeedWord, hslot]

/-- `op` = 10 or 11 with a non-zero payload (spec/30_encoding.md R75), by the word's value. -/
theorem decode_eq_payloadNotZero {w : CommandWord} (hop : 2 ≤ w.toNat / 2 ^ 50)
    (hpay : w.toNat % 2 ^ 50 ≠ 0) : decode w = .illegal .payloadNotZero := by
  refine decode_of_payload_ne_zero ?_ ?_ (mt (payload_eq_zero_iff w).mp hpay)
  · rw [Ne, opField_eq_iff, BitVec.toNat_ofNat]; omega
  · rw [Ne, opField_eq_iff, BitVec.toNat_ofNat]; omega

/-- Settles O3: each range of values is a row of R82. -/
theorem decodeByWordValue : Obligations.DecodeByWordValue := by
  intro w
  refine ⟨fun hlt => ?_, fun hge hlt => ?_, fun heq => ?_, fun heq => ?_, fun hgt hne => ?_⟩
  · exact decode_of_opField_reserved ((opField_eq_iff w _).mpr (Nat.div_eq_of_lt hlt))
  · rw [decode_of_opField_init ((opField_eq_iff w _).mpr (by rw [BitVec.toNat_ofNat]; omega)),
      initOfSeedWord_payload]
  · exact decode_of_opField_nextbit ((opField_eq_iff w _).mpr (by rw [heq]; rfl))
      ((payload_eq_zero_iff w).mpr (by omega))
  · exact decode_of_opField_nextfe ((opField_eq_iff w _).mpr (by rw [heq]; rfl))
      ((payload_eq_zero_iff w).mpr (by omega))
  · exact decode_eq_payloadNotZero (by omega) (by omega)

/-- Settles O4: each word is in its row of R82. -/
theorem scenarioWordsDecode : Obligations.ScenarioWordsDecode := by
  unfold Obligations.ScenarioWordsDecode
  decide

/-! ## Seeds from natural numbers, and the Register they fill -/

theorem fits_iff (p : SeedNats) :
    p.fits = true ↔
      p.fk < 4 ∧ p.sb < 16 ∧ p.n < 4096 ∧ p.t < 4096 ∧ p.rf < 1024 ∧ p.rp < 1024 := by
  simp [SeedNats.fits, Config.wFk, Config.wSb, Config.wN, Config.wT, Config.wRf, Config.wRp,
    and_assoc]

theorem instr_eq_none_iff (p : SeedNats) : p.instr? = none ↔ ¬ p.fits = true := by
  simp [SeedNats.instr?]

/-- Settles O5: values that fit keep the word's number below 2^52, so nothing is cut off it. -/
theorem seedFromNaturalsFitsOrIsRefused : Obligations.SeedFromNaturalsFitsOrIsRefused := by
  intro p
  refine ⟨by rw [instr_eq_none_iff, fits_iff], fun i hi => ?_⟩
  have hfit : p.fits = true := by
    by_contra hno
    cases hi.symm.trans ((instr_eq_none_iff p).mpr hno)
  obtain ⟨hfk, hsb, hn, ht, hrf, hrp⟩ := (fits_iff p).mp hfit
  rw [encode_eq_of_instr_eq_some hi, BitVec.toNat_ofNat, Nat.mod_eq_of_lt (by omega)]
  omega

/-- Settles O6: the Register at construction is the seed word followed by thirty ones. -/
theorem seedFieldsInRegister : Obligations.SeedFieldsInRegister := by
  refine ⟨fun fk sb n t rf rp => ⟨fun j hj => ?_, fun j hge hlt => ?_, ?_⟩, by decide, by decide⟩
  · rw [seedRegister, bit, BitVec.getMsbD_append, if_neg (by omega), BitVec.getMsbD_eq_getLsbD]
    simp [hj]
  · rw [seedRegister, bit, BitVec.getMsbD_append, if_pos hge, BitVec.getMsbD_allOnes]
    exact decide_eq_true (by omega)
  · rw [seedRegister, toNat_append_eq_add, BitVec.toNat_allOnes]

/-! ## Illegal words at the port -/

/-- A step at which the command in progress completes runs it (spec/44_host_interface.md R183). -/
theorem step_of_running {s : State} {w : CommandWord} (hport : s.port = .running w)
    (hrst : (nextEdge s).rst = false) (hstall : (nextEdge s).stall = false) :
    step s = command w (consumeEdge s) := by
  simp [step, edge, hrst, hstall, hport]

/-- Settles O27: both kinds of word decode to an illegal one, and the decoder reads no phase. -/
theorem illegalWordIsRefusedInAnyPhase : Obligations.IllegalWordIsRefusedInAnyPhase := by
  intro s w hport hrst hstall hword
  obtain ⟨why, hd⟩ : ∃ why, decode w = .illegal why := by
    obtain hop | ⟨hop, hpay⟩ := hword
    · exact ⟨_, decode_of_opField_reserved ((opField_eq_iff w _).mpr hop)⟩
    · exact ⟨_, decode_eq_payloadNotZero hop hpay⟩
  rw [step_of_running hport hrst hstall, command_of_illegal hd]
  rfl

end Sys2Proof.Proofs

/-! # The Seed Encoder: the engine `INIT` builds (spec/40_seed_encoder.md) -/

namespace Sys2Proof.Proofs

open Sys2Proof.Machine Sys2Proof.Safety Sys2Proof.Laws

/-! ## The warmed-up Register -/

/-- The seed Register as a number: the seed word, followed by thirty ones (spec/40_seed_encoder.md R100). -/
theorem seedRegister_eq_ofNat (fk : BitVec 2) (sb : BitVec 4) (n t : BitVec 12) (rf rp : BitVec 10) :
    seedRegister fk sb n t rf rp =
      BitVec.ofNat 80 ((fk.toNat * 2 ^ 48 + sb.toNat * 2 ^ 44 + n.toNat * 2 ^ 32 + t.toNat * 2 ^ 20 +
        rf.toNat * 2 ^ 10 + rp.toNat) * 2 ^ 30 + (2 ^ 30 - 1)) := by
  rw [← toNat_seedWord, ← BitVec.toNat_allOnes, ← toNat_append_eq_add, BitVec.ofNat_toNat,
    BitVec.setWidth_eq, seedRegister]

/-- `INIT` on an unconstructed block, with its whole frame (spec/40_seed_encoder.md R104,
spec/10_state.md R35). -/
theorem exec_init_of_unconstructed (fk : BitVec 2) (sb : BitVec 4) (n t : BitVec 12)
    (rf rp : BitVec 10) {s : State} (hp : s.phase = .unconstructed) :
    exec (.init fk sb n t rf rp) s = .next
      { s with
        eng := { reg := refillReg^[20] (seedRegister fk sb n t rf rp), cur := 80 }
        phase := .ready
        port := .responding (plainResponse .ok) } := by
  rw [← construct_eng fk sb n t rf rp s]
  exact execInit_of_unconstructed hp

/-- Settles O14: `construct_eng` gives the engine, and the seed Register is the number R100 says. -/
theorem initBuildsTheWarmedRegister : Obligations.InitBuildsTheWarmedRegister := by
  intro fk sb n t rf rp s hp
  rw [← seedRegister_eq_ofNat]
  exact exec_init_of_unconstructed fk sb n t rf rp hp

/-! ## A Register is determined by its stream from any place on -/

/-- The recurrence of R125 read backwards: the next eighty bits fix the one before them. -/
theorem streamBit_eq_of_later (r : Register) (m : Nat) :
    streamBit r m =
      (streamBit r (m + 80) ^^ streamBit r (m + 13) ^^ streamBit r (m + 23) ^^ streamBit r (m + 38) ^^
        streamBit r (m + 51) ^^ streamBit r (m + 62)) := by
  have hcancel : ∀ x a b c d e : Bool,
      x = (x ^^ a ^^ b ^^ c ^^ d ^^ e ^^ a ^^ b ^^ c ^^ d ^^ e) := by decide
  rw [streamBit_add_eighty]
  exact hcancel ..

/-- Two Registers whose streams agree from bit `k` on are equal. -/
theorem eq_of_streamBit_eq_from {r r' : Register} {k : Nat}
    (h : ∀ m, k ≤ m → streamBit r m = streamBit r' m) : r = r' := by
  induction k with
  | zero =>
    refine register_ext fun j hj => ?_
    rw [← streamBit_lt r hj, ← streamBit_lt r' hj]
    exact h j (Nat.zero_le j)
  | succ k ih =>
    refine ih fun m hm => ?_
    rw [streamBit_eq_of_later r, streamBit_eq_of_later r', h _ (by omega), h _ (by omega),
      h _ (by omega), h _ (by omega), h _ (by omega), h _ (by omega)]

/-- Refills lose nothing of the Register (spec/41_lfsr_engine.md R126). -/
theorem refillReg_iterate_injective (k : Nat) : Function.Injective (refillReg^[k]) := by
  intro r r' h
  refine eq_of_streamBit_eq_from (k := 8 * k) fun m hm => ?_
  rw [← Nat.add_sub_cancel' hm, ← streamBit_refill_iterate, h, streamBit_refill_iterate]

/-- Engines with one Cursor that deliver the same raw bits hold the same Register. -/
theorem reg_eq_of_rawAt_eq {e e' : Engine} (hcur : e.cur = e'.cur)
    (h : ∀ m, rawAt e m = rawAt e' m) : e.reg = e'.reg := by
  refine eq_of_streamBit_eq_from (k := e.cur.val) fun m hm => ?_
  have htail := h (m - e.cur.val)
  rwa [rawAt_eq_tail, rawAt_eq_tail, tail, tail, ← hcur, Nat.add_sub_cancel' hm] at htail

/-! ## Distinct seed words -/

/-- The engine after an `INIT` depends on its seed word only (spec/40_seed_encoder.md R107). -/
theorem eng_of_exec_init {i : Instr} {s t : State} (hop : i.op = 0b01#2)
    (hp : s.phase = .unconstructed) (h : exec i s = .next t) :
    t.eng = { reg := refillReg^[20] (i.payload ++ BitVec.allOnes 30), cur := 80 } := by
  cases i with
  | init fk sb n tt rf rp => cases (exec_init_of_unconstructed fk sb n tt rf rp hp).symm.trans h; rfl
  | nextbit => cases hop
  | nextfe => cases hop

/-- Settles O15: the seed word is recovered from the warmed-up Register, since refills are injective,
and that Register from the raw stream. -/
theorem distinctSeedsGiveDistinctStreams : Obligations.DistinctSeedsGiveDistinctStreams := by
  intro i j s s' t t' hi hj hs hs' ht ht'
  have heng := eng_of_exec_init hi hs ht
  have heng' := eng_of_exec_init hj hs' ht'
  refine ⟨fun heq => by rw [heng, heng', heq], fun hne => ?_⟩
  have hreg : t.eng.reg ≠ t'.eng.reg := by
    intro heq
    rw [heng, heng'] at heq
    exact hne ((BitVec.append_left_inj _).mp (refillReg_iterate_injective 20 heq))
  have hcur : t.eng.cur = t'.eng.cur := by rw [heng, heng']
  exact ⟨hreg, not_forall.mp (mt (reg_eq_of_rawAt_eq hcur) hreg)⟩

end Sys2Proof.Proofs

/-! # The LFSR Engine: the refill, the read and the raw stream (spec/41_lfsr_engine.md) -/

namespace Sys2Proof.Proofs

open Sys2Proof.Machine Sys2Proof.Safety Sys2Proof.Laws

/-! ## Registers and their streams -/

/-- A refilled Register is a window of the stream, eight places on (spec/41_lfsr_engine.md R125). -/
theorem bit_refillReg_iterate (r : Register) (k : Nat) {j : Nat} (hj : j < 80) :
    bit (refillReg^[k] r) j = streamBit r (8 * k + j) := by
  rw [← streamBit_lt _ hj, streamBit_refill_iterate]

/-- The eight feedback bits continue the stream past the Register (spec/41_lfsr_engine.md R122). -/
theorem feedback_eq_streamBit (r : Register) {i : Nat} (hi : i < 8) :
    feedback r i = streamBit r (80 + i) := by
  rw [feedback_eq, Nat.add_comm 80 i, streamBit_add_eighty]
  simp (disch := omega) only [streamBit_lt]

/-! ## The two parts of a refilled Register -/

theorem bit_refillReg_of_lt (r : Register) {j : Nat} (hj : j < 72) :
    bit (refillReg r) j = bit r (j + 8) := by
  rw [bit_refillReg r (by omega), if_pos hj]

theorem bit_refillReg_new (r : Register) {i : Nat} (hi : i < 8) :
    bit (refillReg r) (72 + i) = feedback r i := by
  rw [bit_refillReg r (by omega), if_neg (by omega), Nat.add_sub_cancel_left]

/-! ## The refill as word arithmetic -/

theorem bit_or (x y : Register) (j : Nat) : bit (x ||| y) j = (bit x j || bit y j) :=
  BitVec.getMsbD_or

theorem bit_shiftLeft (r : Register) (n j : Nat) : bit (r <<< n) j = bit r (j + n) := by
  rw [bit, BitVec.getMsbD_shiftLeft, bit]

/-- The eight bits from index `72 - n` on, moved into the low byte. -/
theorem bit_ushiftRight_low (r : Register) {n i : Nat} (hn : n ≤ 72) (hi : i < 8) :
    bit (r >>> n) (72 + i) = bit r (i + (72 - n)) := by
  have hlt : 72 + i < 80 := by omega
  have hle : ¬ 72 + i < n := by omega
  have hidx : 72 + i - n = i + (72 - n) := by omega
  simp [bit, BitVec.getMsbD_ushiftRight, hlt, hle, hidx]

/-- Masking with 255 keeps the low byte only. -/
theorem bit_and_lowByte (r : Register) {j : Nat} (hj : j < 80) :
    bit (r &&& 0xFF#80) j = (decide (72 ≤ j) && bit r j) := by
  have hmask : (0xFF#80).getMsbD j = decide (72 ≤ j) := by
    have hlow : 80 - 1 - j < 8 ↔ 72 ≤ j := by omega
    rw [BitVec.getMsbD_eq_getLsbD, BitVec.getLsbD_ofNat, show 255 = 2 ^ 8 - 1 from rfl,
      Nat.testBit_two_pow_sub_one]
    simp only [hj, hlow, show 80 - 1 - j < 80 by omega, decide_true, Bool.true_and]
  rw [bit, BitVec.getMsbD_and, hmask, Bool.and_comm, bit]

/-- The feedback bits as whole-word arithmetic: lane `i` is bit `72 + i` of the exclusive-or of the
six taps' windows (spec/41_lfsr_engine.md R120). -/
theorem feedback_eq_bit_windows (r : Register) {i : Nat} (hi : i < 8) :
    feedback r i =
      bit ((r >>> 72) ^^^ (r >>> 59) ^^^ (r >>> 49) ^^^ (r >>> 34) ^^^ (r >>> 21) ^^^ (r >>> 10))
        (72 + i) := by
  have hwindow {n : Nat} (hn : n ≤ 72) : (r >>> n).getMsbD (72 + i) = bit r (i + (72 - n)) :=
    bit_ushiftRight_low r hn hi
  simp [feedback_eq, bit, BitVec.getMsbD_xor, hwindow]

/-- Settles O8: above the low byte the refill is the shift, and in it the six windows. -/
theorem refillAsWordArithmetic : Obligations.RefillAsWordArithmetic := by
  intro e h
  refine ⟨by rw [refill, h]; rfl, register_ext fun j hj => ?_⟩
  rw [refill, bit_or, bit_shiftLeft, bit_and_lowByte _ hj]
  by_cases hlow : j < 72
  · simp [bit_refillReg_of_lt _ hlow, Nat.not_le.mpr hlow]
  · obtain ⟨i, rfl⟩ := Nat.exists_eq_add_of_le (not_lt.mp hlow)
    have hi : i < 8 := by omega
    rw [bit_refillReg_new _ hi, feedback_eq_bit_windows _ hi, bit_of_le e.reg (by omega)]
    simp

/-! ## The refill as eight bit-serial steps -/

/-- A lane reads the six tap bits and nothing else (spec/41_lfsr_engine.md R122). -/
theorem feedback_congr {r r' : Register} {i : Nat}
    (h : ∀ o ∈ Config.taps, bit r (i + o) = bit r' (i + o)) : feedback r i = feedback r' i := by
  rw [feedback, feedback, List.map_congr_left h]

/-- Settles O9: both sides are the window of the stream eight places on, and a lane below 8 reads no
bit above index 7 + 62. -/
theorem refillIsEightSerialSteps : Obligations.RefillIsEightSerialSteps := by
  refine ⟨fun r => register_ext fun j hj => ?_, fun r r' i hi h => ?_⟩
  · rw [bit_serial_iterate r 8 hj]
    exact bit_refillReg_iterate r 1 hj
  · rw [bit_refillReg_new r hi, bit_refillReg_new r' hi]
    have hmax : ∀ o ∈ Config.taps, o ≤ 62 := by decide
    exact feedback_congr fun o ho => h o ho (by have := hmax o ho; omega)

/-! ## The refill is a bijection -/

theorem refillReg_injective : Function.Injective refillReg := refillReg_iterate_injective 1

theorem refillReg_zero : refillReg 0#80 = 0#80 := by
  refine register_ext fun j hj => ?_
  rw [bit_zero, ← streamBit_zero (8 + j)]
  exact bit_refillReg_iterate 0#80 1 hj

/-- The oldest bits from the new ones: tap offset 0 is read with coefficient 1
(spec/41_lfsr_engine.md R126). -/
theorem bit_eq_of_refillReg (r : Register) {i : Nat} (hi : i < 8) :
    bit r i = (bit (refillReg r) (72 + i) ^^ bit r (i + 13) ^^ bit r (i + 23) ^^ bit r (i + 38) ^^
      bit r (i + 51) ^^ bit r (i + 62)) := by
  have hback := streamBit_eq_of_later r i
  rw [Nat.add_comm i 80, ← feedback_eq_streamBit r hi, ← bit_refillReg_new r hi] at hback
  simpa (disch := omega) only [streamBit_lt] using hback

/-- Every reachable state meets the invariant: it holds after RESET and every step keeps it. -/
theorem invariant_of_reachable {s : State} (h : Reachable s) : Invariant s := by
  obtain ⟨p, edges, k, hwf, hrun⟩ := h
  exact run_keeps (fun t u ht hinv => invariantIsKeptByEveryStep t u hinv ht) hrun
    (invariantHoldsAtReset p edges hwf)

/-- Settles O10: an injection of a finite type is a bijection, and the invariant keeps the Register
of a READY block away from zero. -/
theorem refillIsBijective : Obligations.RefillIsBijective := by
  refine ⟨Finite.injective_iff_bijective.mp refillReg_injective, refillReg_zero,
    fun r => refillReg_iterate_ne_zero 1, fun r => ⟨fun j hj => ?_, fun i hi => ?_⟩,
    seedRegister_ne_zero, fun s hs hp => ?_⟩
  · exact (bit_refillReg_of_lt r hj).symm
  · exact bit_eq_of_refillReg r hi
  · obtain ⟨_, heng, _, _⟩ := invariant_of_reachable hs
    exact (heng hp).1

/-! ## The read, an equation per case of R124 -/

theorem rawbit_of_spent {e : Engine} (h : e.cur = 80) :
    rawbit e = (bit (refillReg e.reg) 72, { reg := refillReg e.reg, cur := 73 }) := by
  have hrefill : refillIfSpent e = { reg := refillReg e.reg, cur := 72 } := by
    rw [refillIfSpent, dif_pos h, refill, h]; rfl
  rw [rawbit, hrefill]
  rfl

theorem rawbit_of_unspent {e : Engine} (h : e.cur ≠ 80) :
    rawbit e = (bit e.reg e.cur, { reg := e.reg, cur := e.cur + 1 }) := by
  rw [rawbit, refillIfSpent, dif_neg h]

theorem cur_ne_eighty {c : Fin 81} (h : c.val < 80) : c ≠ 80 := by
  rintro rfl
  exact absurd h (by decide)

/-- Settles O11: the two equations of the read. -/
theorem rawbitReadsAtTheCursor : Obligations.RawbitReadsAtTheCursor := by
  intro e
  refine ⟨rawbit_of_spent, fun c hc hcur => ?_⟩
  subst hcur
  rw [rawbit_of_unspent (cur_ne_eighty hc)]
  exact ⟨rfl, rfl, cur_succ_val hc⟩

/-! ## Eight reads per refill -/

theorem afterRaw_succ (m : Nat) (e : Engine) : afterRaw (m + 1) e = (rawbit (afterRaw m e)).2 := by
  rw [afterRaw_add, afterRaw, afterRaw]

/-- The engine after `m` reads from a spent Register (the Cursor at 80): every group of eight reads
began with a refill (spec/41_lfsr_engine.md R124). -/
theorem afterRaw_of_spent (r : Register) (m : Nat) :
    (afterRaw m { reg := r, cur := 80 }).reg = refillReg^[(m + 7) / 8] r ∧
      (afterRaw m { reg := r, cur := 80 }).cur.val = 73 + (m + 7) % 8 := by
  induction m with
  | zero => exact ⟨rfl, rfl⟩
  | succ m ih =>
    obtain ⟨hreg, hcur⟩ := ih
    rw [afterRaw_succ]
    by_cases hspent : (afterRaw m { reg := r, cur := 80 }).cur = 80
    · have h7 : (m + 7) % 8 = 7 := by
        rw [hspent, show (80 : Fin 81).val = 80 from rfl] at hcur
        omega
      have hnext : (m + 1 + 7) / 8 = (m + 7) / 8 + 1 := by omega
      rw [rawbit_of_spent hspent, hreg, hnext, Function.iterate_succ_apply']
      exact ⟨rfl, by show 73 = _; omega⟩
    · have h7 : (m + 7) % 8 ≠ 7 := fun h => hspent (Fin.ext (by rw [hcur, h]; rfl))
      have hsame : (m + 1 + 7) / 8 = (m + 7) / 8 := by omega
      rw [rawbit_of_unspent hspent, hreg, hsame]
      exact ⟨rfl, by rw [cur_succ_val (by omega), hcur]; omega⟩

/-- The raw bits from a spent Register: its stream past the eighty bits it holds. -/
theorem rawAt_of_spent (r : Register) (m : Nat) :
    rawAt { reg := r, cur := 80 } m = streamBit r (80 + m) := rawAt_eq_tail _ m

theorem engine_ext {e e' : Engine} (hreg : e.reg = e'.reg) (hcur : e.cur.val = e'.cur.val) :
    e = e' := by
  cases e
  cases e'
  rw [Engine.mk.injEq]
  exact ⟨hreg, Fin.ext hcur⟩

theorem afterRaw_eight_of_spent (r : Register) :
    afterRaw 8 { reg := r, cur := 80 } = { reg := refillReg r, cur := 80 } := by
  obtain ⟨hreg, hcur⟩ := afterRaw_of_spent r 8
  exact engine_ext hreg hcur

/-- Settles O12: the first eight reads are of one refill's new bits, and leave the Register spent. -/
theorem eightReadsPerRefill : Obligations.EightReadsPerRefill := by
  intro r
  have hfirst (r' : Register) (i : Nat) (hi : i < 8) :
      rawAt { reg := r', cur := 80 } i = feedback r' i := by
    rw [rawAt_of_spent, feedback_eq_streamBit r' hi]
  refine ⟨hfirst r, afterRaw_eight_of_spent r, ?_⟩
  have hninth := hfirst (refillReg r) 0 (by omega)
  rwa [← afterRaw_eight_of_spent, rawAt_afterRaw] at hninth

/-! ## The stream after construction -/

/-- Settles O13: the Register is a window of the one stream of the seed Register, and `INIT` leaves
the engine spent after the twentieth refill. -/
theorem streamAfterConstruction : Obligations.StreamAfterConstruction := by
  intro fk sb n t rf rp s hs
  have hstream : streamBit (seedRegister fk sb n t rf rp) = s :=
    funext (isStreamOf_unique (streamBit_isStreamOf _) hs)
  refine ⟨fun k j hj => ?_, fun st st' hp hexec m => ?_⟩
  · rw [bit_refillReg_iterate _ k hj, hstream]
  · rw [eng_of_exec_init rfl hp hexec]
    refine ⟨?_, ?_⟩
    · rw [rawAt_of_spent, streamBit_refill_iterate, ← Nat.add_assoc]
      exact congrFun hstream (240 + m)
    · obtain ⟨hreg, _⟩ := afterRaw_of_spent (refillReg^[20] (seedRegister fk sb n t rf rp)) m
      rw [Nat.add_comm 20, Function.iterate_add_apply]
      exact hreg

end Sys2Proof.Proofs

/-! # The extractor: `DBIT`, `NEXTBIT`, and the raw bits a query consumes (spec/42_extractor.md) -/

namespace Sys2Proof.Proofs

open Sys2Proof.Machine Sys2Proof.Safety Sys2Proof.Laws

/-- `dbit` answers exactly where the loop without a bound ends, and with its answer: the bound of 80
trials cuts nothing off, since the first control of 1 comes below it (spec/70_reset_and_hazards.md
R236). -/
theorem dbit_eq_some_iff (e : Engine) (b : Bool) (e' : Engine) :
    dbit e = some (b, e') ↔
      ∃ t, FirstControl e t ∧ b = candidateBit e t ∧ e' = afterRaw (2 * t + 2) e := by
  rw [dbit, dbitLoop_eq_some_iff]
  constructor
  · rintro ⟨t, _, h⟩
    exact ⟨t, h⟩
  · rintro ⟨t, hfirst, h⟩
    exact ⟨t, firstControl_lt hfirst, hfirst, h⟩

/-- Settles O16: `dbit` in the terms of the raw stream. -/
theorem dbitIsTheUnboundedLoop : Obligations.DbitIsTheUnboundedLoop := dbit_eq_some_iff

/-- Settles O17: from a Register that is not zero a control of 1 comes, so `DBIT` answers. -/
theorem nextbitCompletesWithinEightyTrials : Obligations.NextbitCompletesWithinEightyTrials := by
  intro s hp hreg
  obtain ⟨t, hfirst⟩ := exists_firstControl hreg
  have hdbit : dbit s.eng = some (candidateBit s.eng t, afterRaw (2 * t + 2) s.eng) :=
    (dbit_eq_some_iff _ _ _).mpr ⟨t, hfirst, rfl, rfl⟩
  exact ⟨t, firstControl_lt hfirst, hfirst, execNextbit_of_some hp hdbit⟩

/-! ## A query that responds

Of the three cases of a query only the one with an answer turns the port of a READY block in which
the command is running into one that responds. -/

section Responds
variable {s t : State} {w : CommandWord} {r : Response} (hrun : s.port = .running w)
  (hp : s.phase = .ready) (hresp : t.port = .responding r)
include hrun hp hresp

theorem dbit_of_nextbit_responds (h : exec .nextbit s = .next t) :
    ∃ b, dbit s.eng = some (b, t.eng) := by
  obtain ⟨hnot, _⟩ | ⟨_, b, e, hd, ho⟩ | ⟨_, _, ho⟩ := execNextbit_cases (o := .next t) h
  · exact absurd hp hnot
  · cases ho; exact ⟨b, hd⟩
  · cases ho; rw [hrun] at hresp; cases hresp

theorem sample_of_nextfe_responds (h : exec .nextfe s = .next t) :
    ∃ buf, sample s.inst s.eng = some (buf, t.eng) ∧ r.data = some buf := by
  obtain ⟨hnot, _⟩ | ⟨_, buf, e, hs, ho⟩ | ⟨_, _, ho⟩ := execNextfe_cases (o := .next t) h
  · exact absurd hp hnot
  · cases ho; cases hresp; exact ⟨buf, hs, rfl⟩
  · cases ho; rw [hrun] at hresp; cases hresp

end Responds

/-- Settles O18: the pairs are those of the one `DBIT` of `NEXTBIT`, and those of the attempts of
`NEXTFE` up to the accepted one. -/
theorem queriesConsumeWholePairs : Obligations.QueriesConsumeWholePairs := by
  intro s t w r hrun hp hresp
  refine ⟨fun h => ?_, fun h => ?_⟩
  · obtain ⟨b, hd⟩ := dbit_of_nextbit_responds hrun hp hresp h
    obtain ⟨k, hfirst, _, heng⟩ := (dbit_eq_some_iff _ _ _).mp hd
    exact ⟨k, hfirst, heng⟩
  · obtain ⟨buf, hs, hdata⟩ := sample_of_nextfe_responds hrun hp hresp h
    obtain ⟨a, hrej, hatt, hacc⟩ := (sample_eq_some_iff _ _ _ _).mp hs
    obtain ⟨m, hm, ⟨hcount, hlast⟩, heng⟩ := attemptAt_pairs hatt
    exact ⟨a, m, buf, hrej, hatt, hacc, hdata, heng, hcount, hlast, hm⟩

end Sys2Proof.Proofs

/-! # The Field Sampler: attempts, `NEXTFE`, and a `NEXTFE` that hangs (spec/43_field_sampler.md) -/

namespace Sys2Proof.Proofs

open Sys2Proof.Machine Sys2Proof.Safety Sys2Proof.Laws

/-! ## One attempt -/

/-- Settles O19: each of the `NUM_BITS` derived bits costs 1 to 80 pairs, and `attemptLoop_pairs`
adds them up. -/
theorem attemptReturnsWithinItsBound : Obligations.AttemptReturnsWithinItsBound := by
  intro p e hreg
  obtain ⟨⟨buf, e'⟩, hatt, _⟩ := attempt_isSome p hreg
  obtain ⟨_, m, hm, hdraws, rfl⟩ := attemptLoop_pairs hatt
  exact ⟨buf, m, hdraws.le, hm, hatt⟩

/-- A buffer has no bits past its bytes. -/
theorem bufBit_of_length_le {buf : List Byte} {k : Nat} (hk : 8 * buf.length ≤ k) :
    bufBit buf k = false := by
  have hpast : buf.length ≤ k / 8 := by omega
  simp [bufBit, List.getElem?_eq_none hpast]

/-- Settles O20: `attemptLoop_of_derivedBits` gives the bits of the attempt's buffer, and they are
those of `pack`. -/
theorem attemptPacksDerivedBits : Obligations.AttemptPacksDerivedBits := by
  intro p e e' ds hwf hds
  have hroom : 0 + p.numBits ≤ 8 * (zeroBuf p.reprBytes).length := by
    simpa using numBits_le_of_wf hwf
  obtain ⟨hlen, buf, hloop, hbuf, hbits⟩ := attemptLoop_of_derivedBits hroom hds
  rw [length_zeroBuf] at hbuf
  suffices buf = pack p.reprBytes ds from ⟨hlen, this ▸ hloop⟩
  refine buf_ext (by simp [hbuf]) fun j => ?_
  by_cases hj : j < 8 * p.reprBytes
  · simp [hbits, bufBit_pack _ _ hj]
  · rw [bufBit_of_length_le (by omega), bufBit_of_length_le (by rw [length_pack]; omega)]

/-! ## What `NEXTFE` answers -/

/-- The buffer of the rejection loop is the buffer of one attempt, which `Parse` accepts
(spec/43_field_sampler.md R158, R160). -/
theorem attempt_of_sample {p : Config.Params} {e e' : Engine} {buf : List Byte}
    (h : sample p e = some (buf, e')) : ∃ e₀, attempt p e₀ = some (buf, e') := by
  obtain ⟨_, _, hatt, _⟩ := (sample_eq_some_iff p e buf e').mp h
  exact ⟨_, attempt_iterate_of_attemptAt hatt⟩

section Responds
variable {s t : State} {w : CommandWord} {r : Response} (hrun : s.port = .running w)
  (hresp : t.port = .responding r)
include hrun hresp

/-- A running `NEXTFE` ends in a response exactly where it is refused or the rejection loop ends:
where the loop never ends the port still shows the running command. -/
theorem exec_nextfe_responds_iff :
    exec .nextfe s = .next t ↔
      (s.phase ≠ .ready ∧ t = raiseRefused .notReady s) ∨
        (s.phase = .ready ∧ ∃ buf e, sample s.inst s.eng = some (buf, e) ∧
          t = respond (dataResponse buf) { s with eng := e }) := by
  constructor
  · intro h
    obtain ⟨hp, ho⟩ | ⟨hp, buf, e, hs, ho⟩ | ⟨_, _, ho⟩ := execNextfe_cases (o := .next t) h <;>
      cases ho
    · exact .inl ⟨hp, rfl⟩
    · exact .inr ⟨hp, buf, e, hs, rfl⟩
    · rw [hrun] at hresp; cases hresp
  · rintro (⟨hp, rfl⟩ | ⟨hp, buf, e, hs, rfl⟩)
    · exact execNextfe_of_ne_ready hp
    · exact execNextfe_of_some hp hs

/-- The response of `NEXTFE`: the refusal, or the buffer the rejection loop ended with. -/
theorem response_of_nextfe (h : exec .nextfe s = .next t) :
    r = plainResponse .notReady ∨
      ∃ buf, sample s.inst s.eng = some (buf, t.eng) ∧ r = dataResponse buf := by
  obtain ⟨_, rfl⟩ | ⟨_, buf, e, hs, rfl⟩ := (exec_nextfe_responds_iff hrun hresp).mp h <;>
    cases hresp
  · exact .inl rfl
  · exact .inr ⟨buf, hs, rfl⟩

end Responds

/-- The buffer of an attempt is zero above `NUM_BITS`, bit by bit and as a value. -/
theorem attempt_zero_above_numBits {p : Config.Params} (hwf : p.wf = true) {e e' : Engine}
    {buf : List Byte} (h : attempt p e = some (buf, e')) :
    (∀ k, p.numBits ≤ k → bufBit buf k = false) ∧ bufValue buf < 2 ^ p.numBits :=
  ⟨fun _ => bufBit_attempt_of_le hwf h, bufValue_lt_of_attempt hwf h⟩

/-- Settles O21: a response with data holds the buffer of an attempt, and an attempt sets no bit
above `NUM_BITS`. -/
theorem bufferBitsAboveNumBitsAreZero : Obligations.BufferBitsAboveNumBitsAreZero := by
  refine ⟨fun p e e' buf hwf h => attempt_zero_above_numBits hwf h,
    fun s t w r buf hwf hrun h hresp hdata => ?_⟩
  obtain rfl | ⟨buf', hs, rfl⟩ := response_of_nextfe hrun hresp h <;> cases hdata
  obtain ⟨_, hatt⟩ := attempt_of_sample hs
  exact attempt_zero_above_numBits hwf hatt

/-- Settles O22: `sample` is the rejection loop without a cap, so it ends with the first accepted
attempt. -/
theorem nextfeReturnsTheFirstAcceptedBuffer : Obligations.NextfeReturnsTheFirstAcceptedBuffer := by
  intro s a buf e' hp hrej hatt hacc
  exact execNextfe_of_some hp ((sample_eq_some_iff _ _ _ _).mpr ⟨a, hrej, hatt, hacc⟩)

/-- The default `Parse` compares strictly with `MODULUS` (spec/43_field_sampler.md R156). -/
theorem accepts_belowModulus_iff {p : Config.Params} {m : Nat} (hp : p.parse = .belowModulus m)
    (buf : List Byte) : accepts p buf = true ↔ bufValue buf < m := by
  simp [accepts, hp]

/-- Settles O23: the rejection loop ends with an accepted buffer only. -/
theorem nextfeResultIsAccepted : Obligations.NextfeResultIsAccepted := by
  refine ⟨fun s t w r hrun h hresp hok => ?_, fun p m buf hp => accepts_belowModulus_iff hp buf⟩
  obtain rfl | ⟨buf, hs, rfl⟩ := response_of_nextfe hrun hresp h
  · cases hok
  · obtain ⟨_, _, _, hacc⟩ := (sample_eq_some_iff _ _ _ _).mp hs
    exact ⟨buf, rfl, rfl, hacc, fun m hm => (accepts_belowModulus_iff hm buf).mp hacc⟩

/-! ## `NEXTFE` from `NEXTBIT`s -/

/-- The first of several `NEXTBIT`s answers one derived bit, where no response is left to take. -/
theorem nextbits_succ (n : Nat) {s : State} (hp : s.phase = .ready) (hnone : s.response = none) :
    nextbits (n + 1) s = (dbit s.eng).bind fun r =>
      (nextbits n { s with eng := r.2, port := .idle }).map fun q => (r.1 :: q.1, q.2) := by
  rw [nextbits]
  cases hd : dbit s.eng with
  | none =>
    rw [show exec .nextbit s = .next s from execNextbit_of_none hp hd]
    cases hport : s.port with
    | idle => simp [hport]
    | running w => simp [hport]
    | responding r => simp [State.response, hport] at hnone
  | some r =>
    rw [show exec .nextbit s = .next (respond (bitResponse r.1) { s with eng := r.2 }) from
      execNextbit_of_some hp hd]
    rfl

/-- Successive `NEXTBIT`s deliver the derived bits (spec/42_extractor.md R144). -/
theorem derivedBits_of_nextbits {n : Nat} {s t : State} {ds : List Bool} (hp : s.phase = .ready)
    (hnone : s.response = none) (h : nextbits n s = some (ds, t)) :
    derivedBits n s.eng = some (ds, t.eng) := by
  induction n generalizing s ds with
  | zero => cases h; rfl
  | succ n ih =>
    rw [nextbits_succ n hp hnone] at h
    obtain ⟨⟨b, e⟩, hd, hrest⟩ := Option.bind_eq_some_iff.mp h
    obtain ⟨⟨bs, u⟩, hbs, heq⟩ := Option.map_eq_some_iff.mp hrest
    cases heq
    have hds : derivedBits n e = some (bs, u.eng) :=
      ih (s := { s with eng := e, port := .idle }) hp rfl hbs
    rw [derivedBits, hd, Option.bind_some, hds, Option.map_some]

/-- After a rejected attempt the rejection loop has one pass less to go. -/
theorem sampleLoop_succ_of_rejected {p : Config.Params} {e e' : Engine} {buf : List Byte}
    (hatt : attempt p e = some (buf, e')) (hrej : accepts p buf = false) (fuel : Nat) :
    sampleLoop p (fuel + 1) e = sampleLoop p fuel e' := by
  simp [sampleLoop, hatt, hrej]

/-- `sample` answers what any number of passes of its loop answers. -/
theorem sample_eq_some_iff_exists_fuel (p : Config.Params) (e : Engine) (r : List Byte × Engine) :
    sample p e = some r ↔ ∃ fuel, sampleLoop p fuel e = some r := by
  refine ⟨fun h => ⟨engineStates, h⟩, fun ⟨fuel, h⟩ => ?_⟩
  obtain ⟨a, _, hfirst⟩ := (sampleLoop_eq_some_iff p fuel e r.1 r.2).mp h
  exact (sample_eq_some_iff p e r.1 r.2).mpr ⟨a, hfirst⟩

/-- After a rejected attempt the rejection loop starts afresh from the engine it left
(spec/43_field_sampler.md R160). -/
theorem sample_of_rejected {p : Config.Params} {e e' : Engine} {buf : List Byte}
    (hatt : attempt p e = some (buf, e')) (hrej : accepts p buf = false) :
    sample p e = sample p e' := by
  refine Option.ext fun r => ?_
  rw [sample_eq_some_iff_exists_fuel, sample_eq_some_iff_exists_fuel]
  constructor
  · rintro ⟨fuel, h⟩
    cases fuel with
    | zero => cases h
    | succ fuel => exact ⟨fuel, sampleLoop_succ_of_rejected hatt hrej fuel ▸ h⟩
  · rintro ⟨fuel, h⟩
    exact ⟨fuel + 1, (sampleLoop_succ_of_rejected hatt hrej fuel).trans h⟩

/-- Settles O24: the `NEXTBIT`s draw the bits of the first attempt and leave its engine; accepted, it
is what `NEXTFE` answers, and rejected, the loop starts afresh from there. -/
theorem nextfeFromNextbits : Obligations.NextfeFromNextbits := by
  intro s t w ds hp hwf hrun h
  have hnone : s.response = none := by simp [State.response, hrun]
  obtain ⟨_, hatt⟩ :=
    attemptPacksDerivedBits _ _ _ _ hwf (derivedBits_of_nextbits hp hnone h)
  refine ⟨fun hacc => ?_, fun hrej u r hresp => ?_⟩
  · exact nextfeReturnsTheFirstAcceptedBuffer s 0 _ _ hp nofun hatt hacc
  · have hsample : sample s.inst s.eng = sample s.inst t.eng := sample_of_rejected hatt hrej
    rw [exec_nextfe_responds_iff hrun hresp,
      exec_nextfe_responds_iff (s := { s with eng := t.eng }) hrun hresp, hsample]
    simp [hp]

/-! ## A `NEXTFE` that never ends -/

/-- The block runs a `NEXTFE` whose rejection loop never ends (spec/44_host_interface.md R187). -/
structure HungNextfe (s : State) : Prop where
  running : ∃ w, s.port = .running w ∧ decode w = .command .nextfe
  ready : s.phase = .ready
  endless : sample s.inst s.eng = none

theorem HungNextfe.after_consumeEdge {s : State} (h : HungNextfe s) : HungNextfe (consumeEdge s) :=
  ⟨h.running, h.ready, h.endless⟩

/-- An edge that stalls the command in progress changes nothing (spec/44_host_interface.md R182). -/
theorem step_of_stalled {s : State} {w : CommandWord} (hport : s.port = .running w)
    (hrst : (nextEdge s).rst = false) (hstall : (nextEdge s).stall = true) :
    step s = .next (consumeEdge s) := by
  simp [step, edge, hrst, hstall, hport]

/-- Stalled or not, a `NEXTFE` that never ends is still in progress after an edge without RESET
(log entry 8). -/
theorem HungNextfe.step_eq {s : State} (h : HungNextfe s) (hrst : (nextEdge s).rst = false) :
    step s = .next (consumeEdge s) := by
  obtain ⟨w, hport, hd⟩ := h.running
  cases hstall : (nextEdge s).stall with
  | true => exact step_of_stalled hport hrst hstall
  | false =>
    rw [step_of_running hport hrst hstall, command_of_command hd]
    exact execNextfe_of_none h.ready h.endless

theorem HungNextfe.run_eq {s : State} (h : HungNextfe s) {k : Nat}
    (hrst : ∀ p, p ∈ s.inputs.take k → p.rst = false) :
    run k s = .next { s with inputs := s.inputs.drop k } := by
  induction k generalizing s with
  | zero => rfl
  | succ k ih =>
    have hnext : (nextEdge s).rst = false := by
      cases hin : s.inputs with
      | nil => simp [nextEdge, hin]
      | cons p rest => exact hrst _ (by simp [nextEdge, hin])
    have hlater : ∀ p, p ∈ s.inputs.tail.take k → p.rst = false := fun p hp =>
      hrst p (List.mem_of_mem_tail (by simpa [List.tail_take_eq_take_tail] using hp))
    rw [run_succ_of_next (h.step_eq hnext), ih h.after_consumeEdge hlater]
    simp [consumeEdge]

/-- Settles O25: where every attempt is rejected the rejection loop never ends. -/
theorem hungCommandStaysInProgress : Obligations.HungCommandStaysInProgress := by
  intro s w k hport hd hp hreg hrej hrst
  exact HungNextfe.run_eq ⟨⟨w, hport, hd⟩, hp, (sample_eq_none_iff _ hreg).mpr hrej⟩ hrst

/-- A `Parse` that rejects every buffer of `REPR_BYTES` bytes rejects every attempt. -/
theorem rejected_of_rejectsAll {p : Config.Params} {e : Engine} (hreg : e.reg ≠ 0#80)
    (hall : ∀ buf, buf.length = p.reprBytes → accepts p buf = false) (k : Nat) :
    Rejected p e k := by
  obtain ⟨⟨buf, e'⟩, hatt, _⟩ := attemptAt_isSome p k hreg
  exact ⟨buf, e', hatt, hall buf (attempt_length (attempt_iterate_of_attemptAt hatt))⟩

/-- Settles O45: such a `Parse` makes `NEXTFE` hang. -/
theorem rejectAllNeverResponds : Obligations.RejectAllNeverResponds := by
  intro s w k hport hd hp hreg hall
  exact hungCommandStaysInProgress s w k hport hd hp hreg (rejected_of_rejectsAll hreg hall)

end Sys2Proof.Proofs

/-! # The host interface: the handshake, stalls and RESET (spec/44_host_interface.md) -/

namespace Sys2Proof.Proofs

open Sys2Proof.Machine Sys2Proof.Safety Sys2Proof.Laws

/-! ## The step, an equation per state of the port

`step_of_running` and `step_of_stalled` are the equations for a command in progress. -/

/-- RESET wins over everything else at its edge (spec/44_host_interface.md R184). -/
theorem step_of_reset {s : State} (hrst : (nextEdge s).rst = true) :
    step s = .next (resetEvent (consumeEdge s)) := by
  simp [step, edge, hrst]

/-- Settles O30: a word presented moves the port, and without one the port stays idle. -/
theorem idleBlockAcceptsOrWaits : Obligations.IdleBlockAcceptsOrWaits := by
  intro s hport hrst
  cases hvalid : (nextEdge s).cmdValid with
  | true => simp [step, edge, hrst, hport, hvalid, accept, consumeEdge]
  | false => simp [step, edge, hrst, hport, hvalid, consumeEdge]

/-- Settles O31: `rsp_ready` frees the port, and without it the port keeps the response. -/
theorem responseIsHeldUntilTaken : Obligations.ResponseIsHeldUntilTaken := by
  intro s r hport hrst
  cases hready : (nextEdge s).rspReady with
  | true => simp [step, edge, hrst, hport, hready, takeResponse, consumeEdge]
  | false => simp [step, edge, hrst, hport, hready, consumeEdge]

/-- Settles O28: the step runs the word, and the word is run as the instruction it decodes to. -/
theorem stepRunsTheDecodedCommand : Obligations.StepRunsTheDecodedCommand := by
  intro s w i hport hdecode hrst hstall
  rw [step_of_running hport hrst hstall, command_of_command hdecode, consumeEdge]

/-- Settles O32: an edge reads the command port only where the block is idle. -/
theorem busyBlockIgnoresTheCommandPort : Obligations.BusyBlockIgnoresTheCommandPort := by
  intro s p rest v w hbusy
  cases hport : s.port with
  | idle => simp [State.busy, hport] at hbusy
  | running w' => simp [step, edge, nextEdge, consumeEdge]
  | responding r => simp [step, edge, nextEdge, consumeEdge]

/-- Settles O35: RESET overwrites every field the outputs are computed from. -/
theorem resetFromAnyState : Obligations.ResetFromAnyState := by
  refine ⟨fun s hrst => ⟨_, _, step_of_reset hrst, fun t ht => ?_⟩, rfl, rfl⟩
  cases (step_of_reset hrst).symm.trans ht
  rfl

/-! ## Runs of a command -/

theorem run_one (s : State) : run 1 s = step s := by
  rw [run]
  cases step s <;> rfl

/-- A command takes nothing from what the host drives at the coming edges. -/
theorem command_inputs {w : CommandWord} {s t : State} (h : command w s = .next t) :
    t.inputs = s.inputs := by
  cases command_effect h <;> rfl

/-- Settles O34, by induction on the number of stalls: each of them consumes its own edge only. -/
theorem stallsOnlyDelay : Obligations.StallsOnlyDelay := by
  intro k s w rest hport
  induction k with
  | zero => exact (run_one _).trans (step_of_running hport rfl rfl)
  | succ k ih =>
    have hstall : step { s with inputs := List.replicate (k + 1) { stall := true } ++ {} :: rest } =
        .next { s with inputs := List.replicate k { stall := true } ++ {} :: rest } :=
      step_of_stalled hport rfl rfl
    rw [run_succ_of_next hstall, ih]

/-- Settles O33: the first edge accepts the word, the second runs its command, which leaves the
third edge to come, and that one takes the response. -/
theorem threeEdgesPerformACommand : Obligations.ThreeEdgesPerformACommand := by
  intro s t w rest r hport hcommand hresponse
  have hinputs : t.inputs = { rspReady := true } :: rest := command_inputs hcommand
  have haccept : step { s with inputs := (Event.command w).edges ++ rest } =
      .next { s with port := .running w, inputs := {} :: { rspReady := true } :: rest } :=
    idleBlockAcceptsOrWaits _ hport rfl
  have hruns : step { s with port := .running w, inputs := {} :: { rspReady := true } :: rest } =
      .next t :=
    (step_of_running rfl rfl rfl).trans hcommand
  have htake : step t = .next { t with port := .idle, inputs := rest } := by
    simpa [nextEdge, hinputs] using responseIsHeldUntilTaken t r hresponse
  rw [run_succ_of_next haccept, run_succ_of_next hruns, run_one, htake]

end Sys2Proof.Proofs

/-! # Refusals and the use that meets none (spec/60_exceptions.md) -/

namespace Sys2Proof.Proofs

open Sys2Proof.Machine Sys2Proof.Safety Sys2Proof.Laws

/-! ## No step stops the machine -/

theorem exec_eq_next (i : Instr) (s : State) : ∃ t, exec i s = .next t := by
  cases i with
  | init fk sb n t rf rp =>
    obtain ⟨_, ho⟩ | ⟨_, ho⟩ := execInit_cases (o := exec (.init fk sb n t rf rp) s) rfl <;>
      exact ⟨_, ho⟩
  | nextbit =>
    obtain ⟨_, ho⟩ | ⟨_, _, _, _, ho⟩ | ⟨_, _, ho⟩ := execNextbit_cases (o := exec .nextbit s) rfl <;>
      exact ⟨_, ho⟩
  | nextfe =>
    obtain ⟨_, ho⟩ | ⟨_, _, _, _, ho⟩ | ⟨_, _, ho⟩ := execNextfe_cases (o := exec .nextfe s) rfl <;>
      exact ⟨_, ho⟩

theorem command_eq_next (w : CommandWord) (s : State) : ∃ t, command w s = .next t := by
  cases hd : decode w with
  | illegal why => exact ⟨_, command_of_illegal hd⟩
  | command i => rw [command_of_command hd]; exact exec_eq_next i s

/-- Settles O38: RESET and the handshake only write the state, and every command answers a next
state. -/
theorem everyStepAnswersANextState : Obligations.EveryStepAnswersANextState := by
  intro s
  obtain ⟨_, ho⟩ | ⟨_, _, _, ho⟩ | ⟨_, _, _, ho⟩ | ⟨_, _, _, ho⟩ | ⟨_, _, w, _, ho⟩ |
    ⟨_, _, _, ho⟩ | ⟨_, _, _, ho⟩ := edge_cases (o := step s) rfl
  -- the edge at which an accepted word completes
  on_goal 5 => rw [ho]; exact command_eq_next w (consumeEdge s)
  all_goals exact ⟨_, ho⟩

/-! ## The three causes of a refusal -/

/-- Settles O26: each cause raises its own code. -/
theorem refusalSetsOnlyTheFlag : Obligations.RefusalSetsOnlyTheFlag := by
  refine fun s => ⟨fun w why hd => command_of_illegal hd,
    fun hp fk sb n t rf rp => execInit_of_ne_unconstructed hp, fun hp i hi => ?_⟩
  obtain rfl | rfl := hi
  · exact execNextbit_of_ne_ready hp
  · exact execNextfe_of_ne_ready hp

/-! ## Instructions that are not refused -/

/-- The phase `ph` gives the instruction no cause to be refused (spec/60_exceptions.md R201). -/
inductive Permitted (ph : Phase) : Instr → Prop
  | init {fk sb n t rf rp} (hp : ph = .unconstructed) : Permitted ph (.init fk sb n t rf rp)
  | nextbit (hp : ph = .ready) : Permitted ph .nextbit
  | nextfe (hp : ph = .ready) : Permitted ph .nextfe

theorem permitted_of_op_init {ph : Phase} {i : Instr} (hop : i.op = 0b01#2)
    (hp : ph = .unconstructed) : Permitted ph i := by
  cases i with
  | init fk sb n t rf rp => exact .init hp
  | nextbit => cases hop
  | nextfe => cases hop

/-- Every instruction is well formed, so its word decodes to it (spec/30_encoding.md R82). -/
theorem decode_encode (i : Instr) : decode (encode i) = .command i :=
  decodeOfEncode i (by cases i <;> rfl)

/-- A permitted instruction leaves the block READY with a success, or never ends
(spec/44_host_interface.md R187). -/
theorem Permitted.exec_cases {i : Instr} {s t : State} (hi : Permitted s.phase i)
    (h : exec i s = .next t) :
    t = s ∨ ∃ r e, r.status = .ok ∧ t = respond r { s with eng := e, phase := .ready } := by
  cases hi with
  | init hp =>
    cases (execInit_of_unconstructed hp).symm.trans h
    exact .inr ⟨_, _, rfl, rfl⟩
  | nextbit hp =>
    rw [← hp]
    obtain ⟨hne, _⟩ | ⟨_, b, e, _, ho⟩ | ⟨_, _, ho⟩ := execNextbit_cases (o := .next t) h
    · exact absurd hp hne
    · cases ho; exact .inr ⟨_, _, rfl, rfl⟩
    · cases ho; exact .inl rfl
  | nextfe hp =>
    rw [← hp]
    obtain ⟨hne, _⟩ | ⟨_, buf, e, _, ho⟩ | ⟨_, _, ho⟩ := execNextfe_cases (o := .next t) h
    · exact absurd hp hne
    · cases ho; exact .inr ⟨_, _, rfl, rfl⟩
    · cases ho; exact .inl rfl

/-! ## What the host drives under correct use (spec/60_exceptions.md R200) -/

/-- No RESET, and no word but well-formed queries. -/
def QueriesOnly (edges : List Edge) : Prop :=
  ∀ p, p ∈ edges → p.rst = false ∧
    (p.cmdValid = true → p.cmdWord = encode .nextbit ∨ p.cmdWord = encode .nextfe)

theorem QueriesOnly.tail {edges : List Edge} (h : QueriesOnly edges) : QueriesOnly edges.tail :=
  fun p hp => h p (List.mem_of_mem_tail hp)

/-- Past the end of its inputs the host drives nothing (log entry 10). -/
theorem QueriesOnly.of_nextEdge {s : State} (h : QueriesOnly s.inputs) :
    (nextEdge s).rst = false ∧ ((nextEdge s).cmdValid = true →
      (nextEdge s).cmdWord = encode .nextbit ∨ (nextEdge s).cmdWord = encode .nextfe) := by
  cases hin : s.inputs with
  | nil => simp [nextEdge, hin]
  | cons p rest => exact h _ (by simp [nextEdge, hin])

/-- Any waiting, one `INIT`, then queries. -/
inductive InitThenQueries : List Edge → Prop
  | wait {p : Edge} {rest : List Edge} (hrst : p.rst = false) (hvalid : p.cmdValid = false)
    (hrest : InitThenQueries rest) : InitThenQueries (p :: rest)
  | init {p : Edge} {rest : List Edge} {i : Instr} (hrst : p.rst = false)
    (hvalid : p.cmdValid = true) (hop : i.op = 0b01#2) (hword : p.cmdWord = encode i)
    (hrest : QueriesOnly rest) : InitThenQueries (p :: rest)

theorem initThenQueries_append {wait rest : List Edge}
    (hwait : ∀ p, p ∈ wait → p.rst = false ∧ p.cmdValid = false) (h : InitThenQueries rest) :
    InitThenQueries (wait ++ rest) := by
  induction wait with
  | nil => exact h
  | cons p wait ih =>
    obtain ⟨hrst, hvalid⟩ := hwait p List.mem_cons_self
    exact .wait hrst hvalid (ih fun q hq => hwait q (List.mem_cons_of_mem p hq))

/-! ## The step of an idle block, an equation per value of `cmd_valid` (spec/44_host_interface.md R181) -/

theorem step_of_idle_of_valid {s : State} (hport : s.port = .idle) (hrst : (nextEdge s).rst = false)
    (hvalid : (nextEdge s).cmdValid = true) :
    step s = .next (accept (nextEdge s).cmdWord (consumeEdge s)) := by
  simp [step, edge, hrst, hport, hvalid]

theorem step_of_idle_of_not_valid {s : State} (hport : s.port = .idle)
    (hrst : (nextEdge s).rst = false) (hvalid : (nextEdge s).cmdValid = false) :
    step s = .next (consumeEdge s) := by
  simp [step, edge, hrst, hport, hvalid]

/-! ## Correct use is an invariant -/

/-- Where a block that is used correctly can stand after RESET. -/
inductive UseStage (s : State) : Prop
  | awaitsInit (hphase : s.phase = .unconstructed) (hport : s.port = .idle)
    (hin : InitThenQueries s.inputs)
  | executes {i : Instr} (hport : s.port = .running (encode i)) (hi : Permitted s.phase i)
    (hin : QueriesOnly s.inputs)
  | responds {r : Response} (hphase : s.phase = .ready) (hport : s.port = .responding r)
    (hok : r.status = .ok) (hin : QueriesOnly s.inputs)
  | awaitsQuery (hphase : s.phase = .ready) (hport : s.port = .idle) (hin : QueriesOnly s.inputs)

theorem UseStage.status_eq_ok {s : State} (h : UseStage s) {r : Response}
    (hr : s.response = some r) : r.status = .ok := by
  cases h with
  | awaitsInit _ hport _ => simp [State.response, hport] at hr
  | executes hport _ _ => simp [State.response, hport] at hr
  | @responds r' _ hport hok _ =>
    obtain rfl : r' = r := by simpa [State.response, hport] using hr
    exact hok
  | awaitsQuery _ hport _ => simp [State.response, hport] at hr

/-- The block is used correctly and has refused nothing since RESET. -/
structure CorrectlyUsed (s : State) : Prop where
  flt : s.flt = false
  stage : UseStage s

section
variable {s t : State} (hflt : s.flt = false) (h : step s = .next t)
include hflt h

/-- The block goes on waiting, or `INIT` is accepted before construction. -/
theorem correctlyUsed_step_of_awaitsInit (hphase : s.phase = .unconstructed) (hport : s.port = .idle)
    (hin : InitThenQueries s.inputs) : CorrectlyUsed t := by
  generalize hinputs : s.inputs = edges at hin
  cases hin with
  | @wait p rest hrst hvalid hrest =>
    obtain rfl : nextEdge s = p := by simp [nextEdge, hinputs]
    obtain rfl : s.inputs.tail = rest := by simp [hinputs]
    cases (step_of_idle_of_not_valid hport hrst hvalid).symm.trans h
    exact ⟨hflt, .awaitsInit hphase hport hrest⟩
  | @init p rest i hrst hvalid hop hword hrest =>
    obtain rfl : nextEdge s = p := by simp [nextEdge, hinputs]
    obtain rfl : s.inputs.tail = rest := by simp [hinputs]
    cases (step_of_idle_of_valid hport hrst hvalid).symm.trans h
    exact ⟨hflt, .executes (congrArg Port.running hword) (permitted_of_op_init hop hphase) hrest⟩

/-- The command in progress is stalled, never ends, or succeeds. -/
theorem correctlyUsed_step_of_executes {i : Instr} (hport : s.port = .running (encode i))
    (hi : Permitted s.phase i) (hin : QueriesOnly s.inputs) : CorrectlyUsed t := by
  obtain ⟨hrst, _⟩ := hin.of_nextEdge
  cases hstall : (nextEdge s).stall with
  | true =>
    cases (step_of_stalled hport hrst hstall).symm.trans h
    exact ⟨hflt, .executes hport hi hin.tail⟩
  | false =>
    rw [step_of_running hport hrst hstall, command_of_command (decode_encode i)] at h
    obtain rfl | ⟨r, e, hok, rfl⟩ := hi.exec_cases (s := consumeEdge s) h
    · exact ⟨hflt, .executes hport hi hin.tail⟩
    · exact ⟨hflt, .responds rfl rfl hok hin.tail⟩

/-- The response is held or taken. -/
theorem correctlyUsed_step_of_responds {r : Response} (hphase : s.phase = .ready)
    (hport : s.port = .responding r) (hok : r.status = .ok) (hin : QueriesOnly s.inputs) :
    CorrectlyUsed t := by
  obtain ⟨hrst, _⟩ := hin.of_nextEdge
  cases (responseIsHeldUntilTaken s r hport hrst).symm.trans h
  cases hready : (nextEdge s).rspReady with
  | true => exact ⟨hflt, .awaitsQuery hphase rfl hin.tail⟩
  | false => exact ⟨hflt, .responds hphase rfl hok hin.tail⟩

/-- The block goes on waiting, or a query is accepted after construction. -/
theorem correctlyUsed_step_of_awaitsQuery (hphase : s.phase = .ready) (hport : s.port = .idle)
    (hin : QueriesOnly s.inputs) : CorrectlyUsed t := by
  obtain ⟨hrst, hquery⟩ := hin.of_nextEdge
  cases hvalid : (nextEdge s).cmdValid with
  | false =>
    cases (step_of_idle_of_not_valid hport hrst hvalid).symm.trans h
    exact ⟨hflt, .awaitsQuery hphase hport hin.tail⟩
  | true =>
    cases (step_of_idle_of_valid hport hrst hvalid).symm.trans h
    obtain hword | hword := hquery hvalid
    · exact ⟨hflt, .executes (congrArg Port.running hword) (.nextbit hphase) hin.tail⟩
    · exact ⟨hflt, .executes (congrArg Port.running hword) (.nextfe hphase) hin.tail⟩

end

theorem correctlyUsed_step {s t : State} (h : step s = .next t) (hs : CorrectlyUsed s) :
    CorrectlyUsed t := by
  obtain ⟨hflt, hstage⟩ := hs
  cases hstage with
  | awaitsInit hphase hport hin => exact correctlyUsed_step_of_awaitsInit hflt h hphase hport hin
  | executes hport hi hin => exact correctlyUsed_step_of_executes hflt h hport hi hin
  | responds hphase hport hok hin => exact correctlyUsed_step_of_responds hflt h hphase hport hok hin
  | awaitsQuery hphase hport hin => exact correctlyUsed_step_of_awaitsQuery hflt h hphase hport hin

/-- Settles O43: RESET begins a correct use, every step keeps it, and it presents no refusal. -/
theorem correctUseIsNeverRefused : Obligations.CorrectUseIsNeverRefused := by
  intro s t i reset init wait rest k hreset hwait hop hrst hvalid hword hrest h
  have hin : InitThenQueries (wait ++ init :: rest) :=
    initThenQueries_append hwait (.init hrst hvalid hop hword hrest)
  obtain ⟨u, hu, ht⟩ := run_succ_cases h
  have hfirst : step { s with inputs := reset :: wait ++ init :: rest } = .next _ :=
    step_of_reset hreset
  cases hfirst.symm.trans hu
  obtain ⟨hflt, hstage⟩ :=
    run_keeps (fun _ _ => correctlyUsed_step) ht ⟨rfl, .awaitsInit rfl rfl hin⟩
  exact ⟨hflt, fun r => hstage.status_eq_ok⟩

end Sys2Proof.Proofs
